-- ==== Sys2Proof/Word.lean ====
section
/-! DEFINITION. The CORE's only word: the byte (00_scope.md R8, R12; 20_memory.md R46). -/

namespace Sys2Proof

/-- A register, a memory cell, an opcode or an operand: an unsigned value in [0, 255] (R12). -/
abbrev Byte := BitVec 8

end Sys2Proof
end

