-- ==== Sys2Proof/Syntax.lean ====
section
/-! DEFINITION. The thirteen instructions of the CORE (00_scope.md R1), as syntax.

A register operand is the whole operand byte (30_encoding.md R59): a byte of 8 or more still names an
instruction (R67) and is an error only where the instruction accesses that register. -/

namespace Sys2Proof

/-- The thirteen mnemonics, in the order of the table of R60. -/
inductive Mnemonic where
  | ldi | prn | hlt | add | mul | cmp | push | pop | call | ret | jmp | jeq | jne
deriving DecidableEq, Repr

/-- One constructor for each row of `spec/opcode_table.json`. -/
inductive Instr where
  /-- R86: load the immediate byte `imm` into register `r`. -/
  | ldi (r imm : Byte)
  /-- R87: emit register `r` on the output channel. -/
  | prn (r : Byte)
  /-- R88: halt. -/
  | hlt
  /-- R91: add register `rb` to register `ra`. -/
  | add (ra rb : Byte)
  /-- R92: multiply register `ra` by register `rb`. -/
  | mul (ra rb : Byte)
  /-- R93: compare register `ra` with register `rb`. -/
  | cmp (ra rb : Byte)
  /-- R95: push register `r`. -/
  | push (r : Byte)
  /-- R96: pop into register `r`. -/
  | pop (r : Byte)
  /-- R98: call the subroutine at the address in register `r`. -/
  | call (r : Byte)
  /-- R99: return to the address on top of the stack. -/
  | ret
  /-- R100: jump to the address in register `r`. -/
  | jmp (r : Byte)
  /-- R101: jump to the address in register `r` if Equal is set. -/
  | jeq (r : Byte)
  /-- R102: jump to the address in register `r` if Equal is clear. -/
  | jne (r : Byte)
deriving DecidableEq, Repr

/-- The mnemonic of an instruction. -/
def Instr.mnemonic : Instr → Mnemonic
  | .ldi _ _ => .ldi
  | .prn _ => .prn
  | .hlt => .hlt
  | .add _ _ => .add
  | .mul _ _ => .mul
  | .cmp _ _ => .cmp
  | .push _ => .push
  | .pop _ => .pop
  | .call _ => .call
  | .ret => .ret
  | .jmp _ => .jmp
  | .jeq _ => .jeq
  | .jne _ => .jne

/-- The operand bytes of an instruction, in address order (R57, R59). -/
def Instr.operands : Instr → List Byte
  | .ldi r imm => [r, imm]
  | .add ra rb | .mul ra rb | .cmp ra rb => [ra, rb]
  | .prn r | .push r | .pop r | .call r | .jmp r | .jeq r | .jne r => [r]
  | .hlt | .ret => []

/-- The operand bytes that name registers, `op1` before `op2` (the formats of R58). -/
def Instr.registerOperands : Instr → List Byte
  | .ldi r _ => [r]
  | .add ra rb | .mul ra rb | .cmp ra rb => [ra, rb]
  | .prn r | .push r | .pop r | .call r | .jmp r | .jeq r | .jne r => [r]
  | .hlt | .ret => []

/-- The spelling of a mnemonic (R69). -/
def Mnemonic.spelling : Mnemonic → String
  | .ldi => "LDI"
  | .prn => "PRN"
  | .hlt => "HLT"
  | .add => "ADD"
  | .mul => "MUL"
  | .cmp => "CMP"
  | .push => "PUSH"
  | .pop => "POP"
  | .call => "CALL"
  | .ret => "RET"
  | .jmp => "JMP"
  | .jeq => "JEQ"
  | .jne => "JNE"

/-- `Rn`, the assembler's name of the register whose operand byte is `n` (R70). -/
def registerName (r : Byte) : String :=
  "R" ++ toString r.toNat

/-- The assembly line of an instruction (R69 to R71, R73): the mnemonic, then the operands separated by a
comma, immediates in decimal.  Only a well-formed instruction has such a line (`R8` is no name). -/
def Instr.render (i : Instr) : String :=
  match i with
  | .ldi r imm => i.mnemonic.spelling ++ " " ++ registerName r ++ "," ++ toString imm.toNat
  | .add ra rb | .mul ra rb | .cmp ra rb =>
    i.mnemonic.spelling ++ " " ++ registerName ra ++ "," ++ registerName rb
  | .prn r | .push r | .pop r | .call r | .jmp r | .jeq r | .jne r =>
    i.mnemonic.spelling ++ " " ++ registerName r
  | .hlt | .ret => i.mnemonic.spelling

end Sys2Proof
end

