-- ==== Sys2Proof/Config.lean ====
section
/-! DEFINITION. What is fixed for one CORE: its sizes and its two parameters (00_scope.md R7 to R11). -/

namespace Sys2Proof

/-- `MEM_SIZE` (R7): the number of memory cells. -/
abbrev memSize : Nat := 256

/-- `NREGS` (R8): the number of general registers. -/
abbrev nregs : Nat := 8

/-- `SP_INIT` (R9): the value of R7, and so of the stack pointer, at construction. -/
def spInit : Byte := 0xF4

/-- The parameter `OPCODE_MAP` (R10): the opcode byte of each mnemonic.  It is the dispatch table of R38,
which is fixed at construction and is no state. -/
abbrev OpcodeMap := Mnemonic → Byte

/-- R61: what a model requires of the parameter `OPCODE_MAP`: the three opcodes the source gives, and no
byte selects two instructions. -/
structure OpcodeMap.Admissible (m : OpcodeMap) : Prop where
  ldi : m .ldi = 0x82
  prn : m .prn = 0x47
  hlt : m .hlt = 0x01
  injective : Function.Injective m

/-- The parameter `INIT_REGS` (R11, R20): the values of R0 to R6 at construction.  The spec leaves them open
and forbids a model to fix them, so they are uninterpreted: whatever is proved holds for every choice.
DESIGN CHOICE (log 2), unsafe only in that `State.reset` is one state. -/
opaque Config.initRegs : Fin 7 → Byte

end Sys2Proof
end

