-- ==== Sys2Proof/Machine/State.lean ====
section
/-! DEFINITION. The state of the CORE (10_state.md, 20_memory.md), how a step can stop, and reset. -/

namespace Sys2Proof.Machine

/-- The condition flags Equal, Greater and Less (R30). -/
structure Flags where
  e : Bool
  g : Bool
  l : Bool
deriving DecidableEq, Repr

/-- The run state (R35, R74): RUNNING, or HALTED for good. -/
inductive RunState where
  | running
  | halted
deriving DecidableEq, Repr

/-- The two spaces an index can leave (R105). -/
inductive Space where
  | memory
  | register
deriving DecidableEq, Repr

/-- The three kinds of core error (R103). -/
inductive ErrorKind where
  | unrecognizedOpcode
  | outOfBounds
  | aluOperationUnsupported
deriving DecidableEq, Repr

/-- What was wrong: the part of an error record that depends on its kind (R105).  Nothing raises
`aluOperationUnsupported`: the ALU's tag has three values (R84, R109; log 12). -/
inductive ErrorCause where
  | unrecognizedOpcode
  | outOfBounds (space : Space) (index : Int)
  | aluOperationUnsupported
deriving DecidableEq, Repr

/-- The kind of a cause (R103). -/
def ErrorCause.kind : ErrorCause → ErrorKind
  | .unrecognizedOpcode => .unrecognizedOpcode
  | .outOfBounds _ _ => .outOfBounds
  | .aluOperationUnsupported => .aluOperationUnsupported

/-- The error record of R105: the cause (its kind, and the space and index of an OutOfBounds), `pc` at the
start of the faulting step, and the opcode byte, or none if the opcode fetch itself faulted. -/
structure ErrorRecord where
  cause : ErrorCause
  pc : Nat
  op : Option Byte
deriving DecidableEq, Repr

/-- Memory (R41) as its cells that are not 0, in address order; an unlisted cell is 0 (R42; log 9). -/
abbrev Memory := List Host.Cell

/-- The state of the CORE: the tuple of 10_state.md, which R40 says is all of it. -/
structure State where
  /-- R0 to R7 (R18). -/
  regs : Vector Byte 8
  /-- The program counter, an integer that does not wrap (R22, R23; log 8). -/
  pc : Nat
  /-- The stack pointer, a register of its own (R26, R27, R29; log 8). -/
  sp : Nat
  /-- The condition flags (R30). -/
  flags : Flags
  /-- The run state (R35). -/
  run : RunState
  /-- The error record, if a fatal error has halted the engine (R36). -/
  err : Option ErrorRecord
  /-- The bytes PRN has emitted, in execution order (R37). -/
  out : List Byte
  /-- Memory (R41). -/
  mem : Memory
deriving DecidableEq, Repr

/-- Why no step is taken. -/
inductive Fault where
  /-- Raised by `step` alone, on a HALTED machine: "In HALTED no step exists" (R74; log 3).  Safe: the
  machine has stopped for good (R35). -/
  | halted
deriving DecidableEq, Repr

/-- Why an instruction has no meaning here. -/
inductive Refusal where
  /-- Raised by an arm of `exec` that has no meaning yet; no arm does.  Safe: nothing is claimed. -/
  | notModelled (mnemonic : String)
deriving DecidableEq, Repr

/-- Construction with the parameter `INIT_REGS`, in the order of R121: `sp` is copied from R7 after R7 is set. -/
def State.construct (init : Fin 7 → Byte) : State :=
  let regs : Vector Byte 8 := #v[init 0, init 1, init 2, init 3, init 4, init 5, init 6, spInit]
  { mem := []
    regs := regs
    sp := regs[7].toNat
    flags := ⟨false, false, false⟩
    pc := 0
    run := .running
    err := none
    out := [] }

/-- The machine right after reset: constructed with the open `INIT_REGS` (R121, R123; log 2). -/
def State.reset : State :=
  State.construct Config.initRegs

end Sys2Proof.Machine
end

