-- ==== Sys2Proof/Machine/Flags.lean ====
section
/-! DEFINITION. The flag computation of CMP (42_alu.md R93) and the byte view of the flags (10_state.md R34). -/

namespace Sys2Proof.Machine

/-- The flags CMP sets: unsigned comparison, exactly one of the three (R31, R89, R93). -/
def compareFlags (a b : Byte) : Flags :=
  { e := decide (a.toNat = b.toNat), g := decide (a.toNat > b.toNat), l := decide (a.toNat < b.toNat) }

/-- `FL = 0b00000LGE` (R34).  PRESUMED (log 10), safe: no instruction reads or writes the flags as a byte. -/
def Flags.pack (f : Flags) : Byte :=
  BitVec.ofNat 8 (f.e.toNat + 2 * f.g.toNat + 4 * f.l.toNat)

end Sys2Proof.Machine
end

