-- ==== Sys2Proof/WellFormed.lean ====
section
/-! DEFINITION. Which instructions have an assembly line: every register operand names one of R0 to R7
(30_encoding.md R59, R69, R70).  The CORE decodes and runs the others too (R67); they raise
OutOfBounds(register) when they access the register. -/

namespace Sys2Proof

/-- An operand byte that names a register (R59: "Only 0 to 7 name a register"). -/
def namesRegister (r : Byte) : Bool :=
  decide (r.toNat < nregs)

/-- Every register operand names a register. -/
def Instr.wellFormed (i : Instr) : Bool :=
  i.registerOperands.all namesRegister

end Sys2Proof
end

