-- ==== Sys2Proof/Decode.lean ====
section
/-! DEFINITION. The decoder and the encoder (30_encoding.md), over any opcode map.

Decoding looks at the opcode byte alone (R63) and then takes the operand bytes the format names from the
three-byte fetch window; the bytes it does not take are ignored (R58, R64). -/

namespace Sys2Proof

/-- The four formats of R58. -/
inductive Format where
  | n | r | ri | rr
deriving DecidableEq, Repr

/-- The number of operand bytes of a format (R57, R58). -/
def Format.operandCount : Format → Nat
  | .n => 0
  | .r => 1
  | .ri | .rr => 2

/-- The format of each instruction (R58, R60). -/
def Mnemonic.format : Mnemonic → Format
  | .hlt | .ret => .n
  | .prn | .push | .pop | .call | .jmp | .jeq | .jne => .r
  | .ldi => .ri
  | .add | .mul | .cmp => .rr

/-- The operand count of each instruction: 0, 1 or 2 (R57, R60). -/
def Mnemonic.operandCount (n : Mnemonic) : Nat :=
  n.format.operandCount

/-- The length of an instruction in the program image (R57). -/
def Instr.length (i : Instr) : Nat :=
  1 + i.mnemonic.operandCount

/-- The default of `OPCODE_MAP` (R60).  LDI, PRN and HLT are the source's; the other ten are
PRESUMED (log 1): the spec marks them as general knowledge. -/
def opcodeMap : OpcodeMap
  | .ldi => 0b10000010
  | .prn => 0b01000111
  | .hlt => 0b00000001
  | .add => 0b10100000
  | .mul => 0b10100010
  | .cmp => 0b10100111
  | .push => 0b01000101
  | .pop => 0b01000110
  | .call => 0b01010000
  | .ret => 0b00010001
  | .jmp => 0b01010100
  | .jeq => 0b01010101
  | .jne => 0b01010110

/-- The thirteen mnemonics, for the search of R63. -/
def Mnemonic.all : List Mnemonic :=
  [.ldi, .prn, .hlt, .add, .mul, .cmp, .push, .pop, .call, .ret, .jmp, .jeq, .jne]

/-- The fetch window (R39, R76): the opcode and the two candidate operands, latched for one step. -/
structure Window where
  op : Byte
  op1 : Byte
  op2 : Byte
deriving DecidableEq, Repr

/-- Why bytes are no instruction. -/
inductive DecodeError where
  /-- The opcode has no entry in the opcode map (R65).  Safe: the step takes the error R78 describes. -/
  | unrecognizedOpcode (op : Byte)
  /-- Fewer than three bytes, so no whole fetch window (R58).  Safe: a step never decodes such bytes. -/
  | truncatedWindow (length : Nat)
deriving DecidableEq, Repr

/-- R63: `Decode(op)`, the mnemonic whose opcode is `op`, or none. -/
def decodeOpcode (m : OpcodeMap) (op : Byte) : Option Mnemonic :=
  Mnemonic.all.find? fun n => decide (m n = op)

/-- The instruction a mnemonic makes of the two candidate operands, ignoring those it does not use (R58, R64). -/
def Mnemonic.withOperands (op1 op2 : Byte) : Mnemonic → Instr
  | .ldi => .ldi op1 op2
  | .prn => .prn op1
  | .hlt => .hlt
  | .add => .add op1 op2
  | .mul => .mul op1 op2
  | .cmp => .cmp op1 op2
  | .push => .push op1
  | .pop => .pop op1
  | .call => .call op1
  | .ret => .ret
  | .jmp => .jmp op1
  | .jeq => .jeq op1
  | .jne => .jne op1

/-- Decode a fetch window (R63, R65). -/
def decodeWindow (m : OpcodeMap) (w : Window) : Except DecodeError Instr :=
  match decodeOpcode m w.op with
  | some n => .ok (n.withOperands w.op1 w.op2)
  | none => .error (.unrecognizedOpcode w.op)

/-- Decode the bytes at an address, in address order: the first three are the window (R58). -/
def decodeBytes (m : OpcodeMap) : List Byte → Except DecodeError Instr
  | op :: op1 :: op2 :: _ => decodeWindow m ⟨op, op1, op2⟩
  | bytes => .error (.truncatedWindow bytes.length)

/-- The bytes of an instruction in the program image: the opcode byte, then the operand bytes (R57, R60). -/
def encodeWith (m : OpcodeMap) (i : Instr) : List Byte :=
  m i.mnemonic :: i.operands

/-- The bytes of an instruction under the default opcode map. -/
def encode (i : Instr) : List Byte :=
  encodeWith opcodeMap i

/-- The three bytes of a word numbered as `spec/opcode_table.json` numbers bits: bit 0 is the least significant
bit of the byte at the lowest address.  Bits at `nbits` and above are 0 (log 14). -/
def tableWordBytes (nbits w : Nat) : List Byte :=
  let v := w % 2 ^ nbits
  [BitVec.ofNat 8 v, BitVec.ofNat 8 (v / 2 ^ 8), BitVec.ofNat 8 (v / 2 ^ 16)]

/-- The instruction the decoder reads from such a word. -/
def decodeTableWord (nbits w : Nat) : Option Instr :=
  match decodeBytes opcodeMap (tableWordBytes nbits w) with
  | .ok i => some i
  | .error _ => none

end Sys2Proof
end

