-- ==== Sys2Proof/Machine/Ops.lean ====
section
/-! DEFINITION. The named operations over memory and registers, the entry of a fatal error, and the frame
every handler runs in (00_scope.md R13 to R16; 20_memory.md; 40_cycle.md R76 to R81). -/

namespace Sys2Proof.Machine

/-- The byte at an address; an unlisted cell is 0 (R42). -/
def Memory.read : Memory → Nat → Byte
  | [], _ => 0
  | (b, w) :: rest, a => if a = b then w else Memory.read rest a

/-- Write a byte, keeping the canonical form: addresses rising, no cell of value 0 listed. -/
def Memory.write : Memory → Nat → Byte → Memory
  | [], a, v => if v = 0 then [] else [(a, v)]
  | (b, w) :: rest, a, v =>
    if a < b then (if v = 0 then (b, w) :: rest else (a, v) :: (b, w) :: rest)
    else if a = b then (if v = 0 then rest else (a, v) :: rest)
    else (b, w) :: Memory.write rest a v

/-- Every listed address is `lo` or more, the addresses rise strictly, and no listed byte is 0. -/
def Memory.wfFrom : Nat → Memory → Bool
  | _, [] => true
  | lo, (b, w) :: rest => decide (lo ≤ b) && decide (w ≠ 0) && Memory.wfFrom (b + 1) rest

/-- The canonical form of memory: strictly rising addresses, all below 256, no listed byte 0 (R41, R42). -/
def Memory.wf (m : Memory) : Bool :=
  Memory.wfFrom 0 m && m.all fun c => decide (c.1 < memSize)

/-- Write consecutive bytes from an address on, dropping those past the end of memory. -/
def Memory.place : Memory → Nat → List Byte → Memory
  | m, _, [] => m
  | m, a, v :: vs => Memory.place (if a < memSize then m.write a v else m) (a + 1) vs

/-- Write register `i`. -/
def State.setReg (s : State) (i : Fin 8) (v : Byte) : State :=
  { s with regs := s.regs.set i v }

/-- Write the program counter. -/
def State.setPc (s : State) (a : Nat) : State :=
  { s with pc := a }

/-- Write the stack pointer. -/
def State.setSp (s : State) (a : Nat) : State :=
  { s with sp := a }

/-- Write all three flags. -/
def State.setFlags (s : State) (f : Flags) : State :=
  { s with flags := f }

/-- Replace memory. -/
def State.setMem (s : State) (m : Memory) : State :=
  { s with mem := m }

/-- `Emit(v)`: append a byte to the output channel (R13, R37, R118). -/
def State.emit (s : State) (v : Byte) : State :=
  { s with out := s.out ++ [v] }

/-- The normal halt of HLT: `err` stays none (R75, R81). -/
def State.halt (s : State) : State :=
  { s with run := .halted }

/-- The opcode byte this step fetched, or none if `pc` is outside memory, so that the opcode fetch itself
faulted (R105; log 5). -/
def State.fetchedOpcode (s : State) : Option Byte :=
  if s.pc < memSize then some (s.mem.read s.pc) else none

/-- The error record of a cause raised in the step that starts in this state (R105). -/
def State.errorRecord (s : State) (c : ErrorCause) : ErrorRecord :=
  { cause := c, pc := s.pc, op := s.fetchedOpcode }

/-- Entry on a fatal error (R14, R112): the step that started in `s` commits nothing but `run` and `err`.
There is no return beside it: "The CORE has no return-from-trap instruction and no resumption" (R113). -/
def State.raise (s : State) (c : ErrorCause) : State :=
  { s with run := .halted, err := some (s.errorRecord c) }

/-- `MemRead(addr, 1)` (R13, R45): the address is an integer and never wraps. -/
def memRead (s : State) (a : Int) : Except ErrorCause Byte :=
  if 0 ≤ a ∧ a < (memSize : Int) then .ok (s.mem.read a.toNat) else .error (.outOfBounds .memory a)

/-- `MemWrite(addr, 1, v)` (R13, R45). -/
def memWrite (s : State) (a : Int) (v : Byte) : Except ErrorCause State :=
  if 0 ≤ a ∧ a < (memSize : Int) then .ok (s.setMem (s.mem.write a.toNat v))
  else .error (.outOfBounds .memory a)

/-- Fetch (R76, R77): `pc`, then `pc + 1`, then `pc + 2`, whatever the opcode is; the first address outside
memory is the one reported. -/
def fetch (s : State) : Except ErrorCause Window := do
  let op ← memRead s s.pc
  let op1 ← memRead s (s.pc + 1)
  let op2 ← memRead s (s.pc + 2)
  return ⟨op, op1, op2⟩

/-- The address a push stores to: one below the stack pointer (R26, R44). -/
def pushAddress (s : State) : Int :=
  (s.sp : Int) - 1

/-- Push a byte: the write first, then `sp <- sp - 1` (R26, R94, R95, R98). -/
def pushByte (s : State) (v : Byte) : Except ErrorCause State := do
  let s' ← memWrite s (pushAddress s) v
  return s'.setSp (s.sp - 1)

/-- The byte on top of the stack (R94): the cell `sp` points at. -/
def topOfStack (s : State) : Except ErrorCause Byte :=
  memRead s s.sp

/-- What a handler hands back (R15, R79): the state its effect leaves, the advance, and whether to go on. -/
structure Reply where
  state : State
  advance : Nat
  keepRunning : Bool
deriving DecidableEq, Repr

/-- `return (n, true)` (R15). -/
def advanceBy (n : Nat) (s : State) : Except ErrorCause Reply :=
  .ok { state := s, advance := n, keepRunning := true }

/-- `pc <- target; return (0, true)`: a control transfer reports an advance of 0 (R80, R97). -/
def transferTo (target : Byte) (s : State) : Except ErrorCause Reply :=
  advanceBy 0 (s.setPc target.toNat)

/-- The end of a step that started in `s` (R75, R79): an error commits nothing of the handler's; a handler
that goes on has its advance added to `pc`; HLT halts with no advance. -/
def finish (s : State) (h : Except ErrorCause Reply) : Host.Outcome State Fault Refusal :=
  match h with
  | .error c => .next (s.raise c)
  | .ok r => if r.keepRunning then .next (r.state.setPc (r.state.pc + r.advance)) else .next r.state.halt

end Sys2Proof.Machine
end

