-- ==== Sys2Proof/Machine/Operands.lean ====
section
/-! DEFINITION. The operand forms (30_encoding.md R59): a register operand is a byte used as an index,
checked where it is accessed (10_state.md R19); an immediate operand is the byte itself and needs no form. -/

namespace Sys2Proof.Machine

/-- The register an operand byte names, or OutOfBounds(register, byte) (R19, R59, R108). -/
def regIndex (r : Byte) : Except ErrorCause (Fin 8) :=
  if h : r.toNat < 8 then .ok ⟨r.toNat, h⟩ else .error (.outOfBounds .register r.toNat)

/-- `x[i]` (R13): read the register an operand byte names. -/
def readReg (s : State) (r : Byte) : Except ErrorCause Byte := do
  let i ← regIndex r
  return s.regs[i]

/-- `x[i] <- v` (R13): write the register an operand byte names; no register is hardwired, R7 included (R18, R21). -/
def writeReg (s : State) (r : Byte) (v : Byte) : Except ErrorCause State := do
  let i ← regIndex r
  return s.setReg i v

end Sys2Proof.Machine
end

