-- ==== Sys2Proof/Machine/Alu.lean ====
section
/-! DEFINITION. The ALU sub-component (40_cycle.md R83 to R85) and the family ADD, MUL, CMP (42_alu.md). -/

namespace Sys2Proof.Machine

/-- The ALU's operation tag: three values, so an unrecognized tag cannot be written (R84, D22). -/
inductive AluTag where
  | add
  | mul
  | cmp
deriving DecidableEq, Repr

/-- `ALU(tag, ia, ib)` (R83): both registers are read, `ia` first, before anything is written (R85, R110).
ADD and MUL write `x[ia]` modulo 256 and no flag; CMP writes the three flags (R89, R90). -/
def alu (tag : AluTag) (ia ib : Byte) (s : State) : Except ErrorCause State := do
  let a ← readReg s ia
  let b ← readReg s ib
  match tag with
  | .add => writeReg s ia (a + b)
  | .mul => writeReg s ia (a * b)
  | .cmp => return s.setFlags (compareFlags a b)

/-- The handler of an ALU instruction: the ALU, then `(3, true)` (R83). -/
def aluHandler (tag : AluTag) (ia ib : Byte) (s : State) : Except ErrorCause Reply := do
  let s' ← alu tag ia ib s
  advanceBy 3 s'

/-- ADD (R91). -/
def execAdd (ra rb : Byte) (s : State) : Host.Outcome State Fault Refusal :=
  finish s (aluHandler .add ra rb s)

/-- MUL (R92). -/
def execMul (ra rb : Byte) (s : State) : Host.Outcome State Fault Refusal :=
  finish s (aluHandler .mul ra rb s)

/-- CMP (R93). -/
def execCmp (ra rb : Byte) (s : State) : Host.Outcome State Fault Refusal :=
  finish s (aluHandler .cmp ra rb s)

end Sys2Proof.Machine
end

