-- ==== Sys2Proof/Machine/Control.lean ====
section
/-! DEFINITION. The family CALL, RET, JMP, JEQ, JNE (44_control.md).  Targets come from a register or, for
RET, from the stack; any target is legal and is first checked by the next fetch (R97). -/

namespace Sys2Proof.Machine

/-- The return address CALL pushes: the byte after its two bytes, `pc + 2`.  CALL runs only with
`pc <= 253`, where this fits in a byte (R98; log 7). -/
def returnAddress (s : State) : Byte :=
  BitVec.ofNat 8 (s.pc + 2)

/-- CALL (R98): `t <- x[op1]; MemWrite(sp - 1, 1, pc + 2); sp <- sp - 1; pc <- t; return (0, true)`. -/
def execCall (r : Byte) (s : State) : Host.Outcome State Fault Refusal :=
  finish s do
    let t ← readReg s r
    let s' ← pushByte s (returnAddress s)
    transferTo t s'

/-- RET (R99): `t <- MemRead(sp, 1); pc <- t; return (0, true)`.  `sp` is not changed. -/
def execRet (s : State) : Host.Outcome State Fault Refusal :=
  finish s do
    let t ← topOfStack s
    transferTo t s

/-- JMP (R100): `pc <- x[op1]; return (0, true)`. -/
def execJmp (r : Byte) (s : State) : Host.Outcome State Fault Refusal :=
  finish s do
    let t ← readReg s r
    transferTo t s

/-- A conditional jump: the register is accessed only when the jump is taken (R19, R67, R101, R102);
otherwise the fall-through is two bytes (R57). -/
def jumpIf (taken : Bool) (r : Byte) (s : State) : Except ErrorCause Reply :=
  if taken then do
    let t ← readReg s r
    transferTo t s
  else advanceBy 2 s

/-- JEQ (R101): taken when Equal is set. -/
def execJeq (r : Byte) (s : State) : Host.Outcome State Fault Refusal :=
  finish s (jumpIf s.flags.e r s)

/-- JNE (R102): taken when Equal is clear. -/
def execJne (r : Byte) (s : State) : Host.Outcome State Fault Refusal :=
  finish s (jumpIf (!s.flags.e) r s)

end Sys2Proof.Machine
end

