-- ==== Sys2Proof/Machine/DataMovement.lean ====
section
/-! DEFINITION. The family LDI, PRN, HLT (41_data_movement.md). -/

namespace Sys2Proof.Machine

/-- LDI (R86): `x[op1] <- op2; return (3, true)`. -/
def execLdi (r imm : Byte) (s : State) : Host.Outcome State Fault Refusal :=
  finish s do
    let s' ← writeReg s r imm
    advanceBy 3 s'

/-- PRN (R87): `Emit(x[op1]); return (2, true)`. -/
def execPrn (r : Byte) (s : State) : Host.Outcome State Fault Refusal :=
  finish s do
    let v ← readReg s r
    advanceBy 2 (s.emit v)

/-- HLT (R88): `return (0, false)`. -/
def execHlt (s : State) : Host.Outcome State Fault Refusal :=
  finish s (.ok { state := s, advance := 0, keepRunning := false })

end Sys2Proof.Machine
end

