-- ==== Sys2Proof/Machine/Stack.lean ====
section
/-! DEFINITION. The family PUSH, POP (43_stack.md). -/

namespace Sys2Proof.Machine

/-- PUSH (R95): `v <- x[op1]; MemWrite(sp - 1, 1, v); sp <- sp - 1; return (2, true)`. -/
def execPush (r : Byte) (s : State) : Host.Outcome State Fault Refusal :=
  finish s do
    let v ← readReg s r
    let s' ← pushByte s v
    advanceBy 2 s'

/-- POP (R96): the register index is checked before memory is read (R110); then
`v <- MemRead(sp, 1); x[op1] <- v; sp <- sp + 1; return (2, true)`.  The cell popped keeps its value. -/
def execPop (r : Byte) (s : State) : Host.Outcome State Fault Refusal :=
  finish s do
    let i ← regIndex r
    let v ← topOfStack s
    advanceBy 2 ((s.setReg i v).setSp (s.sp + 1))

end Sys2Proof.Machine
end

