-- ==== Sys2Proof/Machine/Cycle.lean ====
section
/-! DEFINITION. The fetch-decode-execute step over any opcode map (40_cycle.md R75). -/

namespace Sys2Proof.Machine

/-- The step of R75.  In HALTED no step exists (R74). -/
def stepWith (m : OpcodeMap) (s : State) : Host.Outcome State Fault Refusal :=
  match s.run with
  | .halted => .fault .halted
  | .running =>
    match fetch s with
    | .error c => .next (s.raise c)
    | .ok w =>
      match decodeWindow m w with
      | .error _ => .next (s.raise .unrecognizedOpcode)
      | .ok i => exec i s

end Sys2Proof.Machine
end

