-- ==== Sys2Proof/Machine/Step.lean ====
section
/-! DEFINITION. One step under the default opcode map, and the placing of one instruction where it is fetched. -/

namespace Sys2Proof.Machine

/-- One step of the CORE with the default `OPCODE_MAP` (R60, R75; log 1). -/
def step (s : State) : Host.Outcome State Fault Refusal :=
  stepWith opcodeMap s

/-- The state with the instruction whose bits are `w` stored at `pc`, where `step` fetches (log 11). -/
def State.withFetchWord (s : State) (nbits w : Nat) : State :=
  s.setMem (s.mem.place s.pc (tableWordBytes nbits w))

end Sys2Proof.Machine
end

