-- ==== Sys2Proof/Machine/HostPort.lean ====
section
/-! DEFINITION. The interfaces between the CORE and its host (60_exceptions.md R116 to R120): the load port,
the status output and the observation of a finished run.  The output channel is the state's `out`. -/

namespace Sys2Proof.Machine

/-- The load port (R43, R117), called once, on a constructed machine, before the first step: the bytes from
address 0 on, in order.  Past 256 bytes, the write of the byte at address 256 is the fatal out-of-bounds
condition: bytes 0 to 255 are written, no opcode was fetched, and no step follows (D28; log 13). -/
def State.load (s : State) (bytes : List Byte) : State :=
  let s' := s.setMem (s.mem.place 0 bytes)
  if bytes.length ≤ memSize then s'
  else { s' with run := .halted, err := some { cause := .outOfBounds .memory memSize, pc := s.pc, op := none } }

/-- The number of an error kind (R104). -/
def ErrorKind.code : ErrorKind → Nat
  | .unrecognizedOpcode => 1
  | .outOfBounds => 2
  | .aluOperationUnsupported => 3

/-- The error code of the status output (R104, R116): 0 for none. -/
def State.errorCode (s : State) : Nat :=
  match s.err with
  | none => 0
  | some r => r.cause.kind.code

/-- The default exit status the host derives (R116): 0 for code 0, 1 + the code for the rest. -/
def exitStatus (code : Nat) : Nat :=
  if code = 0 then 0 else 1 + code

/-- The observation of a run (R120): `out`, `run`, `err`. -/
def State.observe (s : State) : List Byte × RunState × Option ErrorRecord :=
  (s.out, s.run, s.err)

end Sys2Proof.Machine
end

