-- ==== Sys2Proof/Safety.lean ====
section
/-! DEFINITION. The terms statements are made in: which registers and addresses an instruction accesses, which
errors a step meets and in what order, and the invariant of every state the rules reach. -/

namespace Sys2Proof.Machine

/-- The register operands an instruction accesses in a state, `op1` before `op2` (R108): a conditional jump
accesses its register only when it is taken (R19). -/
def accessedRegisters (i : Instr) (s : State) : List Byte :=
  match i with
  | .jeq r => if s.flags.e then [r] else []
  | .jne r => if s.flags.e then [] else [r]
  | .add ra rb | .mul ra rb | .cmp ra rb => [ra, rb]
  | .ldi r _ | .prn r | .push r | .pop r | .call r | .jmp r => [r]
  | .hlt | .ret => []

/-- The addresses the handler of an instruction accesses (R44): PUSH and CALL write one below `sp`, POP and
RET read at `sp`, the others access none. -/
def accessedAddresses (i : Instr) (s : State) : List Int :=
  match i with
  | .push _ | .call _ => [pushAddress s]
  | .pop _ | .ret => [(s.sp : Int)]
  | .ldi _ _ | .prn _ | .hlt | .add _ _ | .mul _ _ | .cmp _ _ | .jmp _ | .jeq _ | .jne _ => []

/-- The errors of the register operands of 8 or more in a list, in order (R108). -/
def registerErrors (rs : List Byte) : List ErrorCause :=
  (rs.filter fun r => !namesRegister r).map fun r => .outOfBounds .register r.toNat

/-- The errors of the addresses outside [0, 256) in a list, in order (R107). -/
def memoryErrors (addrs : List Int) : List ErrorCause :=
  (addrs.filter fun a => decide (¬(0 ≤ a ∧ a < (memSize : Int)))).map fun a => .outOfBounds .memory a

/-- Every error the handler of an instruction could meet, in the order of R110: register operands, then memory. -/
def handlerErrors (i : Instr) (s : State) : List ErrorCause :=
  registerErrors (accessedRegisters i s) ++ memoryErrors (accessedAddresses i s)

/-- The three bytes at `pc`, `pc + 1` and `pc + 2`. -/
def windowAt (s : State) : Window :=
  ⟨s.mem.read s.pc, s.mem.read (s.pc + 1), s.mem.read (s.pc + 2)⟩

/-- Every error a step could meet, in the order of R110: fetch, decode, then the handler's. -/
def stepErrors (m : OpcodeMap) (s : State) : List ErrorCause :=
  memoryErrors [(s.pc : Int), (s.pc : Int) + 1, (s.pc : Int) + 2] ++
    match decodeWindow m (windowAt s) with
    | .error _ => [.unrecognizedOpcode]
    | .ok i => handlerErrors i s

/-- What a fatal error leaves (R112): `run` and `err` change and nothing else. -/
def fatalHalt (s : State) (c : ErrorCause) : Host.Outcome State Fault Refusal :=
  .next { s with run := .halted, err := some (s.errorRecord c) }

/-- The outcome raises this error and writes nothing else: the engine is HALTED with a record of the cause.
`fatalHalt` says the record's other parts too. -/
def raisesOnly (s : State) (c : ErrorCause) (o : Host.Outcome State Fault Refusal) : Prop :=
  ∃ r : ErrorRecord, r.cause = c ∧ o = .next { s with run := .halted, err := some r }

/-- The operand byte of the register an instruction writes: LDI, ADD, MUL and POP write `op1`, the others none. -/
def destination : Instr → Option Byte
  | .ldi r _ | .add r _ | .mul r _ | .pop r => some r
  | .prn _ | .hlt | .cmp _ _ | .push _ | .call _ | .ret | .jmp _ | .jeq _ | .jne _ => none

/-- The address an instruction stores to (R44): PUSH and CALL store at the push address, the others store nothing. -/
def storeAddress (i : Instr) (s : State) : Option Int :=
  match i with
  | .push _ | .call _ => some (pushAddress s)
  | .ldi _ _ | .prn _ | .hlt | .add _ _ | .mul _ _ | .cmp _ _ | .pop _ | .ret | .jmp _ | .jeq _ | .jne _ => none

/-- Exactly one of the three flags is 1 (R31). -/
def Flags.exactlyOne (f : Flags) : Bool :=
  f.e.toNat + f.g.toNat + f.l.toNat == 1

/-- The flags of a reachable state: all 0 before the first CMP (R33), exactly one 1 after it (R31). -/
def Flags.legal (f : Flags) : Bool :=
  f.e.toNat + f.g.toNat + f.l.toNat ≤ 1

/-- An error record a program can leave (R105 to R109): the opcode is known unless an address was out of
range, the index is outside its range, and the kind is not the ALU's. -/
def ErrorRecord.legal (r : ErrorRecord) : Prop :=
  match r.cause with
  | .unrecognizedOpcode => r.op ≠ none
  | .outOfBounds .memory a => ¬(0 ≤ a ∧ a < (memSize : Int))
  | .outOfBounds .register n => 8 ≤ n ∧ n ≤ 255 ∧ r.op ≠ none
  | .aluOperationUnsupported => False

/-- The invariant of every state the rules reach. -/
structure State.Inv (s : State) : Prop where
  /-- Memory is in canonical form, inside [0, 256) (R41). -/
  memory : s.mem.wf = true
  /-- `pc` is in [0, 256] (R23). -/
  pcRange : s.pc ≤ 256
  /-- `sp` is in [0, 256] (R27). -/
  spRange : s.sp ≤ 256
  /-- At most one flag is 1 (R31, R33). -/
  flags : s.flags.legal = true
  /-- An error record is there only in HALTED (R36, R112). -/
  errHalted : s.err ≠ none → s.run = .halted
  /-- The record is one a program can leave (R105, R109). -/
  errLegal : ∀ r, s.err = some r → r.legal

end Sys2Proof.Machine
end

