-- ==== Sys2Proof/Certificates/Slice0/Obligations.lean ====
section
/-! DEFINITION. The statements for the provers, from the numbered rules of spec/.

`exec i s = .next { s with … }` says the whole next state, so it is the instruction's frame too: every field
not named is as before.  `fatalHalt s c` (Safety) is what a fatal error leaves: `run` and `err`, and nothing else. -/

open Sys2Proof Sys2Proof.Machine

/-! ## Encoding -/

/-- One word of each row, written out from the encodings of R58 and R60, and the instruction it stands for,
both ways.  The opcodes of LDI, PRN and HLT are the source's; the other ten are PRESUMED (log 1). -/
def Obligations.OpcodeTableWords : Prop :=
  ∀ p ∈ ([([0b10000010, 0b00000000, 0b00001000], .ldi 0 8), ([0b01000111, 0b00000011], .prn 3),
      ([0b00000001], .hlt), ([0b10100000, 0b00000010, 0b00000101], .add 2 5),
      ([0b10100010, 0b00000100, 0b00000001], .mul 4 1), ([0b10100111, 0b00000010, 0b00000011], .cmp 2 3),
      ([0b01000101, 0b00000111], .push 7), ([0b01000110, 0b00000001], .pop 1),
      ([0b01010000, 0b00000001], .call 1), ([0b00010001], .ret), ([0b01010100, 0b00000010], .jmp 2),
      ([0b01010101, 0b00000011], .jeq 3), ([0b01010110, 0b00000110], .jne 6)] : List (List Byte × Instr)),
    encode p.2 = p.1 ∧ decodeBytes opcodeMap (p.1 ++ [0b10101011, 0b11111111]) = .ok p.2

/-- R61: the default opcode map is one a model may take.  Its ten general-knowledge values are log 1. -/
def Obligations.DefaultOpcodeMapIsAdmissible : Prop :=
  opcodeMap.Admissible

/-- R63: `Decode(op)` is the mnemonic whose opcode is `op`, or none if there is none. -/
def Obligations.DecodeInvertsOpcodeMap : Prop :=
  ∀ (m : OpcodeMap), Function.Injective m → ∀ (op : Byte),
    (∀ n : Mnemonic, decodeOpcode m op = some n ↔ m n = op) ∧
    (decodeOpcode m op = none ↔ ∀ n : Mnemonic, m n ≠ op)

/-- Decode after encode: any instruction, every operand at every value, under any injective opcode map, with
any bytes after it that fill the fetch window (R57, R58, R63, R64). -/
def Obligations.DecodeAfterEncode : Prop :=
  ∀ (m : OpcodeMap), Function.Injective m → ∀ (i : Instr) (rest : List Byte),
    3 ≤ (encodeWith m i ++ rest).length → decodeBytes m (encodeWith m i ++ rest) = .ok i

/-- Encode after decode: whatever bytes decode to an instruction begin with that instruction's own bytes, so
the decoder drops and invents no bit of them (R57, R59). -/
def Obligations.EncodeAfterDecode : Prop :=
  ∀ (m : OpcodeMap) (bytes : List Byte) (i : Instr), decodeBytes m bytes = .ok i →
    encodeWith m i = bytes.take i.length ∧ 3 ≤ bytes.length

/-- R64: windows that differ only in operand bytes the instruction does not use decode alike. -/
def Obligations.UnusedOperandBytesAreIgnored : Prop :=
  ∀ (m : OpcodeMap) (op a b a' b' : Byte),
    (∀ n : Mnemonic, decodeOpcode m op = some n →
      (1 ≤ n.operandCount → a' = a) ∧ (2 ≤ n.operandCount → b' = b)) →
    decodeWindow m ⟨op, a', b'⟩ = decodeWindow m ⟨op, a, b⟩

/-! ## The step -/

/-- R75: a running machine whose window is in memory and decodes to `i` takes the step `exec i`; nothing is
added around `exec`.  `step` is the step under the default opcode map (log 1). -/
def Obligations.StepRunsDecodedInstruction : Prop :=
  (∀ (m : OpcodeMap) (s : State) (i : Instr), s.run = .running → s.pc + 2 < 256 →
    decodeBytes m [s.mem.read s.pc, s.mem.read (s.pc + 1), s.mem.read (s.pc + 2)] = .ok i →
    stepWith m s = exec i s) ∧
  (∀ s : State, step s = stepWith opcodeMap s)

/-- The instruction `withFetchWord` places is the one the next step runs (the model's own interface, log 11 and
14), under the default opcode map (log 1). -/
def Obligations.PlacedInstructionIsRun : Prop :=
  ∀ (s : State) (nbits w : Nat) (i : Instr), s.run = .running → s.pc + 2 < 256 → s.mem.wf = true →
    decodeTableWord nbits w = some i →
    step (s.withFetchWord nbits w) = exec i (s.withFetchWord nbits w)

/-- R77: a window not wholly in memory faults with the first address out of range, whatever the opcode is and
before decoding. That an out-of-range operand byte faults is the spec's decision D12; the record is D7's, and
that `pc` does not wrap is D5 (log 15). -/
def Obligations.FetchOutsideMemoryHalts : Prop :=
  ∀ (m : OpcodeMap) (s : State), s.run = .running → 256 ≤ s.pc + 2 →
    stepWith m s = .next { s with
      run := .halted
      err := some { cause := .outOfBounds .memory (if s.pc < 256 then 256 else s.pc)
                    pc := s.pc
                    op := if s.pc < 256 then some (s.mem.read s.pc) else none } }

/-- R78: an opcode with no entry raises UnrecognizedOpcode with its value and its address, and HALTED.  (That
nothing else changes is `FirstErrorIsReported`, by decision D7.) -/
def Obligations.UnrecognizedOpcodeHalts : Prop :=
  ∀ (m : OpcodeMap) (s : State), s.run = .running → s.pc + 2 < 256 →
    (∀ n : Mnemonic, m n ≠ s.mem.read s.pc) →
    ∃ t r, stepWith m s = .next t ∧ t.run = .halted ∧ t.err = some r ∧
      r.cause = .unrecognizedOpcode ∧ r.op = some (s.mem.read s.pc) ∧ r.pc = s.pc

/-- R35: the run state starts RUNNING, HLT and every fatal error set HALTED, and no step leaves HALTED. -/
def Obligations.HaltedIsTerminal : Prop :=
  (∀ init, (State.construct init).run = .running) ∧
  (∀ s : State, ∃ t, exec .hlt s = .next t ∧ t.run = .halted) ∧
  (∀ (m : OpcodeMap) (s t : State), stepWith m s = .next t → t.err ≠ s.err → t.run = .halted) ∧
  (∀ (m : OpcodeMap) (s t : State), s.run = .halted → stepWith m s ≠ .next t)

/-- In RUNNING every step ends in a next state, whatever the bytes, registers and stack pointer are; the only
stop is a step asked of a HALTED machine, and nothing is refused (R74, R82; the stop itself is log 3, that a
fatal error is a next state log 4, and that PRN never blocks decision D18, log 15). -/
def Obligations.RunningAlwaysSteps : Prop :=
  ∀ (m : OpcodeMap) (s : State),
    ((∃ t, stepWith m s = .next t) ↔ s.run = .running) ∧
    (∀ f, stepWith m s = .fault f → f = .halted ∧ s.run = .halted) ∧
    (∀ r, stepWith m s ≠ .refused r)

/-- A JMP to its own address runs forever and changes nothing (R82, R100). The step is the one under the default
opcode map (log 1); the run does not end (decision D23). -/
def Obligations.SelfJumpNeverHalts : Prop :=
  ∀ (s : State) (r : Byte) (h : r.toNat < 8), s.run = .running → s.pc + 2 < 256 →
    decodeBytes opcodeMap [s.mem.read s.pc, s.mem.read (s.pc + 1), s.mem.read (s.pc + 2)] = .ok (.jmp r) →
    (s.regs[r.toNat]'h).toNat = s.pc →
    ∀ k : Nat, Host.Core.run Sys2Proof.core k s = .next s

/-! ## Fatal errors -/

/-- R105, R112: the record of a fatal error and all that its entry changes. The record's layout and "commits
nothing" are the spec's decision D7 (log 15). Where the opcode is read is log 5. -/
def Obligations.FatalErrorEntry : Prop :=
  ∀ (s : State) (c : ErrorCause),
    s.raise c = { s with
      run := .halted
      err := some { cause := c, pc := s.pc, op := if s.pc < 256 then some (s.mem.read s.pc) else none } } ∧
    fatalHalt s c = .next (s.raise c)

/-- R110: a step reports the first error met in the order fetch, decode, register operands, memory access, and
no error otherwise. The order inside a handler is the spec's decision D12, that the fatal halt changes nothing
else is D7, that an untaken jump's register is not checked is D11, and that `pc` and `sp` do not wrap is D5 and
D6 (log 15). -/
def Obligations.FirstErrorIsReported : Prop :=
  ∀ (m : OpcodeMap) (s : State), s.run = .running →
    (∀ c later, stepErrors m s = c :: later → stepWith m s = fatalHalt s c) ∧
    (stepErrors m s = [] → ∃ t, stepWith m s = .next t ∧ t.err = s.err)

/-- The same for one handler, in any state: the first of its errors, or none (R110; decisions D6, D7, D11, D12,
log 15). -/
def Obligations.HandlerReportsFirstError : Prop :=
  ∀ (i : Instr) (s : State),
    (∀ c later, handlerErrors i s = c :: later → exec i s = fatalHalt s c) ∧
    (handlerErrors i s = [] →
      ∃ t, exec i s = .next t ∧ t.err = s.err ∧ t.run = (if i = .hlt then .halted else s.run))

/-- A step that changes the error record commits nothing else but HALTED, and the record names the step's `pc`
and opcode (R14, R105, R112; decision D7, log 15; where the opcode is read is log 5). -/
def Obligations.FaultingStepCommitsNothing : Prop :=
  ∀ (m : OpcodeMap) (s t : State), stepWith m s = .next t → t.err ≠ s.err →
    t = { s with run := .halted, err := t.err } ∧
    ∃ r, t.err = some r ∧ r.pc = s.pc ∧
      r.op = (if s.pc < 256 then some (s.mem.read s.pc) else none)

/-- R36: `err` is none at construction, is set by the step that raises the error and is never cleared; a step
from a machine with no error that halts it leaves `err` none exactly when it ran HLT. That a HLT whose window
leaves memory errs instead (R88) is the spec's decision D12 (log 15); that a machine with a record takes no step
is log 3. -/
def Obligations.ErrorRecordIsSetOnce : Prop :=
  (∀ init, (State.construct init).err = none) ∧
  (∀ (m : OpcodeMap) (s t : State), stepWith m s = .next t →
    (∀ r, s.err = some r → t.err ≠ none) ∧
    (s.Inv → s.err = none) ∧
    (s.err = none → t.run = .halted →
      (t.err = none ↔ s.pc + 2 < 256 ∧ decodeWindow m (windowAt s) = .ok .hlt)))

/-- An instruction whose register operands all name registers never raises OutOfBounds(register): the only
errors left to its handler are memory's (R67, R69, R70, R108). It holds whichever way the spec's decision D11
goes. -/
def Obligations.WellFormedRaisesNoRegisterError : Prop :=
  ∀ (i : Instr) (s t : State), i.wellFormed = true → exec i s = .next t → t.err ≠ s.err →
    ∃ a r, t.err = some r ∧ r.cause = .outOfBounds .memory a

/-- R104: the numbers of the error kinds, 0 for none (the spec's decision D8, log 15), and the default exit
status of R116. -/
def Obligations.StatusCodes : Prop :=
  ErrorKind.unrecognizedOpcode.code = 1 ∧ ErrorKind.outOfBounds.code = 2 ∧
  ErrorKind.aluOperationUnsupported.code = 3 ∧
  (∀ s : State, s.err = none → s.errorCode = 0 ∧ exitStatus s.errorCode = 0) ∧
  (∀ (s : State) (r : ErrorRecord), s.err = some r →
    s.errorCode = r.cause.kind.code ∧ exitStatus s.errorCode = 1 + r.cause.kind.code)

/-! ## Data movement, output and halt -/

/-- R86: LDI loads its immediate; `LDI R7` leaves `sp`, and an erring LDI writes nothing, as R86 itself says. -/
def Obligations.LdiLoadsImmediate : Prop :=
  ∀ (r imm : Byte) (s : State),
    encode (.ldi r imm) = [0b10000010, r, imm] ∧
    (∀ h : r.toNat < 8,
      exec (.ldi r imm) s = .next { s with regs := s.regs.set r.toNat imm h, pc := s.pc + 3 }) ∧
    (8 ≤ r.toNat → raisesOnly s (.outOfBounds .register r.toNat) (exec (.ldi r imm) s))

/-- R87: PRN, and what it emits of registers nothing has written. -/
def Obligations.PrnEmitsRegister : Prop :=
  (∀ (r : Byte) (s : State),
    encode (.prn r) = [0b01000111, r] ∧
    (∀ h : r.toNat < 8,
      exec (.prn r) s = .next { s with out := s.out ++ [s.regs[r.toNat]'h], pc := s.pc + 2 }) ∧
    (8 ≤ r.toNat → raisesOnly s (.outOfBounds .register r.toNat) (exec (.prn r) s))) ∧
  (∀ (init : Fin 7 → Byte) (r : Byte),
    (∀ h : r.toNat < 7, ∃ t, exec (.prn r) (State.construct init) = .next t ∧ t.out = [init ⟨r.toNat, h⟩]) ∧
    (r = 7 → ∃ t, exec (.prn r) (State.construct init) = .next t ∧ t.out = [244]))

/-- R88, R81: HLT halts with `err` as it was (none on a machine with no error) and `pc` at its own opcode.
`exec` looks at no window (log 7); a HLT whose window leaves memory is FetchOutsideMemoryHalts. -/
def Obligations.HltHaltsAtItsAddress : Prop :=
  encode .hlt = [0b00000001] ∧ ∀ s : State, exec .hlt s = .next { s with run := .halted }

/-! ## ALU -/

/-- R90: ADD and MUL discard the bits above bit 7 silently and write no flag. That ADD and MUL of R7 leave `sp`
is the spec's decision D4 (R29, R91; log 15). -/
def Obligations.AddAndMulWrapSilently : Prop :=
  ∀ (ra rb : Byte) (s : State) (ha : ra.toNat < 8) (hb : rb.toNat < 8),
    exec (.add ra rb) s = .next { s with
      regs := s.regs.set ra.toNat
        (BitVec.ofNat 8 (((s.regs[ra.toNat]'ha).toNat + (s.regs[rb.toNat]'hb).toNat) % 256)) ha
      pc := s.pc + 3 } ∧
    exec (.mul ra rb) s = .next { s with
      regs := s.regs.set ra.toNat
        (BitVec.ofNat 8 (((s.regs[ra.toNat]'ha).toNat * (s.regs[rb.toNat]'hb).toNat) % 256)) ha
      pc := s.pc + 3 }

/-- R93: CMP writes all three flags by the unsigned order of the registers, exactly one of them 1. -/
def Obligations.CmpSetsExactlyOneFlag : Prop :=
  ∀ (ra rb : Byte) (s : State) (ha : ra.toNat < 8) (hb : rb.toNat < 8),
    ∃ f : Flags, exec (.cmp ra rb) s = .next { s with flags := f, pc := s.pc + 3 } ∧
      (f.e = true ↔ (s.regs[ra.toNat]'ha).toNat = (s.regs[rb.toNat]'hb).toNat) ∧
      (f.g = true ↔ (s.regs[ra.toNat]'ha).toNat > (s.regs[rb.toNat]'hb).toNat) ∧
      (f.l = true ↔ (s.regs[ra.toNat]'ha).toNat < (s.regs[rb.toNat]'hb).toNat) ∧
      f.exactlyOne = true

/-- An ALU instruction checks `op1` before `op2` and commits nothing on an error (R91 to R93; the order is the
spec's decision D12, the commit of nothing D7, log 15). -/
def Obligations.AluChecksFirstOperandFirst : Prop :=
  ∀ (ra rb : Byte) (s : State) (i : Instr), i = .add ra rb ∨ i = .mul ra rb ∨ i = .cmp ra rb →
    (8 ≤ ra.toNat → exec i s = fatalHalt s (.outOfBounds .register ra.toNat)) ∧
    (ra.toNat < 8 → 8 ≤ rb.toNat → exec i s = fatalHalt s (.outOfBounds .register rb.toNat))

/-- R83: the ALU mutates either one register or the flags and never memory or the program counter; its
handler then returns `(3, true)`. -/
def Obligations.AluMutatesRegisterOrFlags : Prop :=
  ∀ (tag : AluTag) (ia ib : Byte) (s t : State), alu tag ia ib s = .ok t →
    (∃ h : ia.toNat < 8,
      (tag ≠ .cmp → ∃ v, t = { s with regs := s.regs.set ia.toNat v h }) ∧
      (tag = .cmp → ∃ f, t = { s with flags := f })) ∧
    aluHandler tag ia ib s = .ok { state := t, advance := 3, keepRunning := true }

/-! ## Stack -/

/-- R95: PUSH stores the register one below `sp` and moves `sp` there; the cell reads back what was pushed. That
`sp` does not wrap, that an error commits nothing and that the register is checked first are the spec's
decisions D6, D7 and D12 (log 15). That PUSH of R7 stores R7's value and leaves R7 is D4, and an `sp` above 256
is log 8. -/
def Obligations.PushStoresBelowStackPointer : Prop :=
  ∀ (r : Byte) (s : State),
    (∀ h : r.toNat < 8, 1 ≤ s.sp → s.sp ≤ 256 →
      exec (.push r) s = .next { s with
        mem := s.mem.write (s.sp - 1) (s.regs[r.toNat]'h), sp := s.sp - 1, pc := s.pc + 2 } ∧
      (s.mem.wf = true → (s.mem.write (s.sp - 1) (s.regs[r.toNat]'h)).read (s.sp - 1) = s.regs[r.toNat]'h)) ∧
    (8 ≤ r.toNat → exec (.push r) s = fatalHalt s (.outOfBounds .register r.toNat)) ∧
    (r.toNat < 8 → s.sp = 0 ∨ 256 < s.sp →
      exec (.push r) s = fatalHalt s (.outOfBounds .memory ((s.sp : Int) - 1)))

/-- R96: POP loads the cell at `sp` and moves `sp` up; the cell keeps its value. That `sp` does not wrap, that
an error commits nothing and that the register is checked first are the spec's decisions D6, D7 and D12 (log
15). That POP of R7 leaves `sp` one up is D4, and an `sp` above 256 is log 8. -/
def Obligations.PopLoadsTopOfStack : Prop :=
  ∀ (r : Byte) (s : State),
    (∀ h : r.toNat < 8, s.sp < 256 →
      exec (.pop r) s = .next { s with
        regs := s.regs.set r.toNat (s.mem.read s.sp) h, sp := s.sp + 1, pc := s.pc + 2 }) ∧
    (8 ≤ r.toNat → exec (.pop r) s = fatalHalt s (.outOfBounds .register r.toNat)) ∧
    (r.toNat < 8 → 256 ≤ s.sp → exec (.pop r) s = fatalHalt s (.outOfBounds .memory s.sp))

/-- PUSH then POP of one register restores the register and `sp` (R95, R96; W4). That R7 and `sp` are apart is
the spec's decision D4 (log 15). -/
def Obligations.PushThenPopRestores : Prop :=
  ∀ (r : Byte) (s : State), r.toNat < 8 → 1 ≤ s.sp → s.sp ≤ 256 → s.mem.wf = true →
    ∃ t u, exec (.push r) s = .next t ∧ exec (.pop r) t = .next u ∧
      u.regs = s.regs ∧ u.sp = s.sp ∧ u.flags = s.flags ∧ u.out = s.out ∧
      ∀ a, a + 1 ≠ s.sp → u.mem.read a = s.mem.read a

/-! ## Control transfer -/

/-- R98: CALL pushes `pc + 2`, which fits a byte since CALL runs only with `pc <= 253`, and jumps. That `sp`
does not wrap, that an error commits nothing and that the register is checked first are the spec's decisions D6,
D7 and D12 (log 15). That CALL leaves R7 is D4, and an `sp` above 256 is log 8. -/
def Obligations.CallPushesReturnAddress : Prop :=
  ∀ (r : Byte) (s : State),
    (∀ h : r.toNat < 8, 1 ≤ s.sp → s.sp ≤ 256 → s.pc ≤ 253 →
      ∃ v : Byte, v.toNat = s.pc + 2 ∧
        exec (.call r) s = .next { s with
          mem := s.mem.write (s.sp - 1) v, sp := s.sp - 1, pc := (s.regs[r.toNat]'h).toNat } ∧
        (s.mem.wf = true → (s.mem.write (s.sp - 1) v).read (s.sp - 1) = v)) ∧
    (8 ≤ r.toNat → exec (.call r) s = fatalHalt s (.outOfBounds .register r.toNat)) ∧
    (r.toNat < 8 → s.sp = 0 ∨ 256 < s.sp →
      exec (.call r) s = fatalHalt s (.outOfBounds .memory ((s.sp : Int) - 1)))

/-- R99: RET jumps to the byte on top of the stack and leaves `sp` where it is. That `sp` does not wrap and that
an error commits nothing are the spec's decisions D6 and D7 (log 15). An `sp` above 256 is log 8. -/
def Obligations.RetReadsWithoutPopping : Prop :=
  ∀ s : State,
    (s.sp < 256 → exec .ret s = .next { s with pc := (s.mem.read s.sp).toNat }) ∧
    (256 ≤ s.sp → exec .ret s = fatalHalt s (.outOfBounds .memory s.sp))

/-- R100: JMP sets `pc` to the register.  That an error commits nothing is the spec's decision D7 (log 15). -/
def Obligations.JmpSetsProgramCounter : Prop :=
  ∀ (r : Byte) (s : State),
    (∀ h : r.toNat < 8, exec (.jmp r) s = .next { s with pc := (s.regs[r.toNat]'h).toNat }) ∧
    (8 ≤ r.toNat → exec (.jmp r) s = fatalHalt s (.outOfBounds .register r.toNat))

/-- R101, R102: JEQ jumps exactly when Equal is 1 and JNE exactly when it is 0; otherwise each falls through by
two bytes and its register operand, whatever its value, is not accessed (decision D11).  That an error commits
nothing is decision D7 (log 15). -/
def Obligations.ConditionalJumpsReadEqual : Prop :=
  ∀ (r : Byte) (s : State),
    (s.flags.e = true →
      (∀ h : r.toNat < 8, exec (.jeq r) s = .next { s with pc := (s.regs[r.toNat]'h).toNat }) ∧
      (8 ≤ r.toNat → exec (.jeq r) s = fatalHalt s (.outOfBounds .register r.toNat)) ∧
      exec (.jne r) s = .next { s with pc := s.pc + 2 }) ∧
    (s.flags.e = false →
      exec (.jeq r) s = .next { s with pc := s.pc + 2 } ∧
      (∀ h : r.toNat < 8, exec (.jne r) s = .next { s with pc := (s.regs[r.toNat]'h).toNat }) ∧
      (8 ≤ r.toNat → exec (.jne r) s = fatalHalt s (.outOfBounds .register r.toNat)))

/-- CALL then RET resumes at `call_address + 2` from any state with `sp` and memory as CALL left them, and each
pair leaves `sp` one lower (R99, R131; W5). -/
def Obligations.CallThenRetResumes : Prop :=
  ∀ (r : Byte) (s : State), r.toNat < 8 → 1 ≤ s.sp → s.sp ≤ 256 → s.pc ≤ 253 → s.mem.wf = true →
    ∃ t, exec (.call r) s = .next t ∧
      ∀ u : State, u.sp = t.sp → u.mem = t.mem →
        ∃ v, exec .ret u = .next v ∧ v.pc = s.pc + 2 ∧ v.sp + 1 = s.sp

/-- A conditional jump right after CMP sees CMP's flags: JEQ is taken exactly on equal registers, JNE exactly on
unequal ones, whichever is greater (R101, R102, R127; W6). -/
def Obligations.BranchAfterCompare : Prop :=
  ∀ (ra rb r : Byte) (s : State) (ha : ra.toNat < 8) (hb : rb.toNat < 8) (h : r.toNat < 8),
    ∃ t, exec (.cmp ra rb) s = .next t ∧
      exec (.jeq r) t = .next { t with
        pc := if s.regs[ra.toNat]'ha = s.regs[rb.toNat]'hb then (s.regs[r.toNat]'h).toNat else t.pc + 2 } ∧
      exec (.jne r) t = .next { t with
        pc := if s.regs[ra.toNat]'ha = s.regs[rb.toNat]'hb then t.pc + 2 else (s.regs[r.toNat]'h).toNat }

/-! ## What every instruction leaves unchanged -/

/-- Every register but the destination of LDI, ADD, MUL or POP is unchanged, by every instruction; R7 is no
exception, so PUSH, POP of another register, CALL and RET leave it alone (R18, R21, R29). That R7 is no other
name of `sp`, so that PUSH, POP of another register and CALL leave it, is the spec's decision D4 (log 15). -/
def Obligations.OtherRegistersUnchanged : Prop :=
  ∀ (i : Instr) (s t : State) (k : Fin 8), exec i s = .next t →
    (∀ r, destination i = some r → r.toNat ≠ k) → t.regs[k] = s.regs[k]

/-- R31: CMP leaves exactly one flag 1; no other instruction writes a flag; an erring CMP writes none; so the
flags persist over every step that does not run a CMP. That an erring CMP writes none is the spec's decision D7
(R14, R93; log 15). -/
def Obligations.OnlyCompareWritesFlags : Prop :=
  (∀ (i : Instr) (s t : State), exec i s = .next t → (∀ ra rb, i ≠ .cmp ra rb) → t.flags = s.flags) ∧
  (∀ (ra rb : Byte) (s t : State), exec (.cmp ra rb) s = .next t →
    (ra.toNat < 8 ∧ rb.toNat < 8 → t.flags.exactlyOne = true) ∧
    (8 ≤ ra.toNat ∨ 8 ≤ rb.toNat → t.flags = s.flags)) ∧
  (∀ (m : OpcodeMap) (s t : State), stepWith m s = .next t → t.flags ≠ s.flags →
    ∃ ra rb, decodeWindow m (windowAt s) = .ok (.cmp ra rb))

/-- `sp` moves down by one on a PUSH or CALL and up by one on a POP, when they do not err, and in no other case;
RET and every write to R7 leave it (R28, R29; decision D4). That an `sp` at the end of memory errs and does not
wrap is decision D6, and that an erring instruction leaves `sp` is D7 (log 15). -/
def Obligations.OnlyStackInstructionsMoveSp : Prop :=
  ∀ (i : Instr) (s t : State), exec i s = .next t →
    match i with
    | .push _ | .call _ => if handlerErrors i s = [] then t.sp + 1 = s.sp else t.sp = s.sp
    | .pop _ => if handlerErrors i s = [] then t.sp = s.sp + 1 else t.sp = s.sp
    | .ldi _ _ | .prn _ | .hlt | .add _ _ | .mul _ _ | .cmp _ _ | .ret | .jmp _ | .jeq _ | .jne _ => t.sp = s.sp

/-- Every byte of memory is unchanged but the one PUSH or CALL stores, at one below `sp`; every other
instruction leaves every byte as it was (R44). That PUSH and CALL at `sp` 0 err and store nothing, rather than
wrap, is the spec's decisions D6 and D7 (log 15). -/
def Obligations.OtherMemoryUnchanged : Prop :=
  ∀ (i : Instr) (s t : State) (a : Nat), exec i s = .next t →
    storeAddress i s ≠ some (a : Int) → t.mem.read a = s.mem.read a

/-- R37: the output channel is empty at construction; only PRN appends to it, one byte, the register's value;
nothing removes from it. -/
def Obligations.OnlyPrnAppendsOutput : Prop :=
  (∀ init, (State.construct init).out = []) ∧
  (∀ (i : Instr) (s t : State), exec i s = .next t → (∀ r, i ≠ .prn r) → t.out = s.out) ∧
  (∀ (r : Byte) (s t : State), exec (.prn r) s = .next t →
    (∀ h : r.toNat < 8, t.out = s.out ++ [s.regs[r.toNat]'h]) ∧ (8 ≤ r.toNat → t.out = s.out)) ∧
  (∀ (m : OpcodeMap) (s t : State), stepWith m s = .next t → ∃ l, t.out = s.out ++ l)

/-- R25, R80: an instruction that does not err sets `pc` to its target (CALL, RET, JMP, taken JEQ and JNE), or
adds its length to it; HLT does neither (R81). That an erring instruction leaves `pc` is the spec's decision D7
(R14, R112; log 15), and that an untaken jump's register cannot err is D11 (R19); that a stack access outside
memory errs and does not wrap is D6. -/
def Obligations.ProgramCounterTargetOrAdvance : Prop :=
  ∀ (i : Instr) (s t : State), exec i s = .next t →
    if handlerErrors i s = [] then
      match i with
      | .hlt => t.pc = s.pc
      | .ret => t.pc = (s.mem.read s.sp).toNat
      | .call r | .jmp r => ∃ h : r.toNat < 8, t.pc = (s.regs[r.toNat]'h).toNat
      | .jeq r => if s.flags.e = true then ∃ h : r.toNat < 8, t.pc = (s.regs[r.toNat]'h).toNat
          else t.pc = s.pc + i.length
      | .jne r => if s.flags.e = true then t.pc = s.pc + i.length
          else ∃ h : r.toNat < 8, t.pc = (s.regs[r.toNat]'h).toNat
      | .ldi _ _ | .prn _ | .add _ _ | .mul _ _ | .cmp _ _ | .push _ | .pop _ => t.pc = s.pc + i.length
    else t.pc = s.pc

/-- A register the instruction does not access has no effect on what it does, and keeps its value: changing it
before the instruction is the same as changing it after (R19, R108, R124). That an untaken jump accesses no
register is the spec's decision D11, and that the stack instructions do not access R7 as `sp` is D4 (log 15). -/
def Obligations.UnaccessedRegisterHasNoEffect : Prop :=
  ∀ (i : Instr) (s t : State) (k : Fin 8) (v : Byte), exec i s = .next t →
    (∀ r ∈ accessedRegisters i s, r.toNat ≠ k) → exec i (s.setReg k v) = .next (t.setReg k v)

/-! ## Reset, load and the invariant -/

/-- R42: every cell of memory is 0 at construction; `State.reset` is the construction with the open INIT_REGS. -/
def Obligations.MemoryStartsZeroed : Prop :=
  (∀ (init : Fin 7 → Byte) (a : Nat), (State.construct init).mem.read a = 0) ∧
  (∀ a : Nat, State.reset.mem.read a = 0)

/-- The rest of construction, for every INIT_REGS: R7 and `sp` are 0xF4, R0 to R6 are INIT_REGS, `pc` is 0, no
flag is set, RUNNING, no error, no output (R20, R24, R26, R33, R35 to R37, R121). That `State.reset` takes the
uninterpreted `Config.initRegs` is the model's choice (log 2). The order, by which `sp` is R7's 0xF4, is the
spec's decision D27, and `sp` apart from R7 is D4 (log 15). -/
def Obligations.ConstructionSetsState : Prop :=
  (∀ init : Fin 7 → Byte,
    let s := State.construct init
    s.regs[7] = 0xF4 ∧ (∀ (k : Fin 7) (j : Fin 8), j.val = k.val → s.regs[j] = init k) ∧
    s.sp = 0xF4 ∧ s.pc = 0 ∧ s.flags = ⟨false, false, false⟩ ∧ s.run = .running ∧ s.err = none ∧ s.out = []) ∧
  State.reset = State.construct Config.initRegs

/-- R43: the load port writes the program's bytes from address 0 in order, every other cell keeps 0, and nothing
else of the constructed machine changes. -/
def Obligations.LoadWritesProgram : Prop :=
  ∀ (init : Fin 7 → Byte) (b : List Byte), b.length ≤ 256 →
    let t := (State.construct init).load b
    (∀ a : Nat, t.mem.read a = b.getD a 0) ∧ t = { State.construct init with mem := t.mem }

/-- R117: a load of more than 256 bytes halts the machine before its first step (decision D28, log 15); no step
follows it (log 3). -/
def Obligations.OverlongLoadHalts : Prop :=
  ∀ (init : Fin 7 → Byte) (b : List Byte), 256 < b.length →
    let t := (State.construct init).load b
    t = { State.construct init with
      mem := t.mem
      run := .halted
      err := some { cause := .outOfBounds .memory 256, pc := 0, op := none } } ∧
    (∀ a : Nat, a < 256 → t.mem.read a = b.getD a 0) ∧
    (∀ m : OpcodeMap, stepWith m t = .fault .halted)

/-- The invariant holds right after construction, for every INIT_REGS, and at reset: memory zeroed, so in
canonical form (R42; log 9), `pc` 0 and `sp` 0xF4, so in range (R24, R26; log 8), no flag set (R33) and no error
record (R36). `State.reset` takes the uninterpreted `Config.initRegs` (log 2). -/
def Obligations.InvariantHoldsAtReset : Prop :=
  (∀ init, (State.construct init).Inv) ∧ State.reset.Inv

/-- The load port keeps the invariant, from every state that has it: it writes bytes inside [0, 256) only (R43,
R117), and an overlong load leaves HALTED with a record a program can leave. That a load is defined on every
state, not only on a constructed one, is the model's choice (log 13); the state an overlong load leaves is the
spec's decision D28 (log 15). -/
def Obligations.InvariantKeptByLoad : Prop :=
  ∀ (s : State) (b : List Byte), s.Inv → (s.load b).Inv

/-- Every step keeps the invariant, from every state that has it, under any opcode map: memory in canonical form
inside [0, 256), `pc` and `sp` in [0, 256], at most one flag set, an error record only in HALTED and only one a
program can leave (R23, R27, R31, R33, R36, R41, R84). That `pc` and `sp` do not wrap is the spec's decisions D5
and D6, and the record D7's (log 15); the canonical form is log 9, the bounds log 8, and the ALU's
kind log 12. -/
def Obligations.InvariantKeptByStep : Prop :=
  ∀ (m : OpcodeMap) (s t : State), s.Inv → stepWith m s = .next t → t.Inv

/-- Every state a loaded program reaches has the invariant, for every INIT_REGS and every image, an overlong one
included: memory canonical inside [0, 256) (R41), `pc` and `sp` in [0, 256] (R23, R27; decisions D5, D6), at
most one flag set (R31, R33), and an error record only in HALTED and only one a program can leave (R36, R84,
R105, R117). The run takes `step`, so it is under the default opcode map, whose ten general-knowledge opcodes
are log 1; `InvariantKeptByStep` says the step itself keeps the invariant under every map. The state an overlong
load leaves is decision D28 (log 15). The canonical form is log 9, the bounds log 8, the ALU's kind log 12 and
the record decision D7. -/
def Obligations.ReachableStatesHaveInvariant : Prop :=
  ∀ (init : Fin 7 → Byte) (b : List Byte) (k : Nat) (t : State),
    Host.Core.run Sys2Proof.core k ((State.construct init).load b) = .next t → t.Inv
end

