-- ==== Sys2Proof/Laws/Memory.lean ====
section
/-! SUPPORT. The laws of memory: a read after a write, and the canonical form every operation keeps. -/

namespace Sys2Proof.Machine

@[simp] theorem Memory.read_nil (a : Nat) : Memory.read [] a = 0 := rfl

/-- A write leaves every other cell alone, in any memory. -/
theorem Memory.read_write_other (m : Memory) {a c : Nat} (v : Byte) (h : c ≠ a) :
    (m.write a v).read c = m.read c := by
  induction m with
  | nil =>
    simp only [Memory.write]
    split <;> simp [Memory.read, h]
  | cons cell rest ih =>
    obtain ⟨b, w⟩ := cell
    simp only [Memory.write]
    split
    · split <;> simp [Memory.read, h]
    · split
      · rename_i hab
        subst hab
        split <;> simp [Memory.read, h]
      · simp only [Memory.read, ih]

/-- Memory whose listed addresses all lie at `lo` or above reads 0 below `lo`. -/
theorem Memory.read_below {lo a : Nat} (m : Memory) (hm : Memory.wfFrom lo m = true) (h : a < lo) :
    m.read a = 0 := by
  induction m generalizing lo with
  | nil => rfl
  | cons cell rest ih =>
    obtain ⟨b, w⟩ := cell
    simp only [Memory.wfFrom, Bool.and_eq_true, decide_eq_true_eq] at hm
    have hab : a ≠ b := by omega
    simp only [Memory.read, hab, if_false]
    exact ih hm.2 (by omega)

/-- A cell just written holds the byte written. -/
theorem Memory.read_write_self_from {lo a : Nat} (m : Memory) (v : Byte) (hm : Memory.wfFrom lo m = true) :
    (m.write a v).read a = v := by
  induction m generalizing lo with
  | nil =>
    simp only [Memory.write]
    split <;> simp_all [Memory.read]
  | cons cell rest ih =>
    obtain ⟨b, w⟩ := cell
    simp only [Memory.wfFrom, Bool.and_eq_true, decide_eq_true_eq] at hm
    have below : ∀ c, c < b + 1 → Memory.read rest c = 0 := fun c hc => Memory.read_below rest hm.2 hc
    simp only [Memory.write]
    split
    · rename_i hab
      have : a ≠ b := by omega
      split <;> simp_all [Memory.read, below a (by omega)]
    · split
      · rename_i hab
        subst hab
        split <;> simp_all [Memory.read, below a (by omega)]
      · rename_i hab
        simp only [Memory.read, hab, if_false]
        exact ih hm.2

theorem Memory.read_write_self (m : Memory) (a : Nat) (v : Byte) (hm : m.wf = true) :
    (m.write a v).read a = v := by
  simp only [Memory.wf, Bool.and_eq_true] at hm
  exact Memory.read_write_self_from m v hm.1

/-- A read after a write, in one equation. -/
theorem Memory.read_write (m : Memory) (a c : Nat) (v : Byte) (hm : m.wf = true) :
    (m.write a v).read c = if c = a then v else m.read c := by
  split
  · subst c
    exact Memory.read_write_self m a v hm
  · exact Memory.read_write_other m v (by assumption)

theorem Memory.wfFrom_mono {lo lo' : Nat} (m : Memory) (hm : Memory.wfFrom lo m = true) (h : lo' ≤ lo) :
    Memory.wfFrom lo' m = true := by
  cases m with
  | nil => rfl
  | cons cell rest =>
    obtain ⟨b, w⟩ := cell
    simp only [Memory.wfFrom, Bool.and_eq_true, decide_eq_true_eq] at hm ⊢
    exact ⟨⟨by omega, hm.1.2⟩, hm.2⟩

theorem Memory.wfFrom_write {lo a : Nat} (m : Memory) (v : Byte) (hm : Memory.wfFrom lo m = true) (h : lo ≤ a) :
    Memory.wfFrom lo (m.write a v) = true := by
  induction m generalizing lo with
  | nil =>
    simp only [Memory.write]
    split <;> simp_all [Memory.wfFrom]
  | cons cell rest ih =>
    obtain ⟨b, w⟩ := cell
    have hm' := hm
    simp only [Memory.wfFrom, Bool.and_eq_true, decide_eq_true_eq] at hm'
    simp only [Memory.write]
    split
    · split
      · exact hm
      · simp_all [Memory.wfFrom]
    · split
      · split
        · exact Memory.wfFrom_mono rest hm'.2 (by omega)
        · simp_all [Memory.wfFrom]
      · simp only [Memory.wfFrom, Bool.and_eq_true, decide_eq_true_eq]
        exact ⟨hm'.1, ih hm'.2 (by omega)⟩

theorem Memory.all_write {a : Nat} (m : Memory) (v : Byte) (p : Nat → Bool)
    (hm : (m.all fun c => p c.1) = true) (h : p a = true) :
    ((m.write a v).all fun c => p c.1) = true := by
  induction m with
  | nil =>
    simp only [Memory.write]
    split <;> simp_all
  | cons cell rest ih =>
    obtain ⟨b, w⟩ := cell
    have hm' := hm
    simp only [List.all_cons, Bool.and_eq_true] at hm'
    simp only [Memory.write]
    split
    · split
      · exact hm
      · rw [List.all_cons, h, hm, Bool.and_self]
    · split
      · split
        · exact hm'.2
        · rw [List.all_cons, h, hm'.2, Bool.and_self]
      · rw [List.all_cons, hm'.1, ih hm'.2, Bool.and_self]

/-- A write inside memory keeps the canonical form. -/
theorem Memory.wf_write (m : Memory) {a : Nat} (v : Byte) (hm : m.wf = true) (h : a < memSize) :
    (m.write a v).wf = true := by
  simp only [Memory.wf, Bool.and_eq_true] at hm ⊢
  exact ⟨Memory.wfFrom_write m v hm.1 (Nat.zero_le a),
    Memory.all_write m v (fun a => decide (a < memSize)) hm.2 (by simpa using h)⟩

/-- Placing bytes keeps the canonical form. -/
theorem Memory.wf_place (vs : List Byte) (m : Memory) (a : Nat) (hm : m.wf = true) :
    (m.place a vs).wf = true := by
  induction vs generalizing m a with
  | nil => exact hm
  | cons v vs ih =>
    simp only [Memory.place]
    split
    · exact ih _ _ (Memory.wf_write m v hm (by assumption))
    · exact ih _ _ hm

/-- A placed byte inside memory reads back; every other cell is as before. -/
theorem Memory.read_place (vs : List Byte) (m : Memory) (a c : Nat) (hm : m.wf = true) (hc : c < memSize) :
    (m.place a vs).read c = if a ≤ c ∧ c < a + vs.length then vs.getD (c - a) 0 else m.read c := by
  induction vs generalizing m a with
  | nil => rw [if_neg (by simp)]; rfl
  | cons v vs ih =>
    simp only [Memory.place, List.length_cons]
    by_cases ha : a < memSize
    · rw [if_pos ha, ih _ _ (Memory.wf_write m v hm ha)]
      rcases Nat.lt_trichotomy c a with h | h | h
      · rw [if_neg (by omega), if_neg (by omega), Memory.read_write_other m v (by omega)]
      · subst h
        rw [if_neg (by omega), if_pos (by omega), Memory.read_write_self m c v hm, Nat.sub_self]
        rfl
      · have e : c - a = (c - (a + 1)) + 1 := by omega
        rw [e, List.getD_cons_succ, Memory.read_write_other m v (by omega)]
        by_cases h' : c < a + 1 + vs.length
        · rw [if_pos (by omega), if_pos (by omega)]
        · rw [if_neg (by omega), if_neg (by omega)]
    · rw [if_neg ha, ih _ _ hm, if_neg (by omega), if_neg (by omega)]

/-- A byte placed past the end of memory is dropped: nothing there is ever listed. -/
theorem Memory.read_outside (m : Memory) (c : Nat) (hm : m.wf = true) (hc : memSize ≤ c) : m.read c = 0 := by
  simp only [Memory.wf, Bool.and_eq_true] at hm
  have h := hm.2
  clear hm
  induction m with
  | nil => rfl
  | cons cell rest ih =>
    obtain ⟨b, w⟩ := cell
    rw [List.all_cons, Bool.and_eq_true, decide_eq_true_eq] at h
    simp only [Memory.read]
    rw [if_neg (by have := h.1; omega)]
    exact ih h.2

/-- The memory right after reset has the canonical form. -/
theorem Memory.wf_reset : State.reset.mem.wf = true := by decide

end Sys2Proof.Machine
end

