-- ==== Sys2Proof/Laws/State.lean ====
section
/-! SUPPORT. One lemma for each field of each update of State, true by rfl, and what construction leaves. -/

namespace Sys2Proof.Machine

variable (s : State)

@[simp] theorem State.setReg_regs (i : Fin 8) (v : Byte) : (s.setReg i v).regs = s.regs.set i v := rfl
@[simp] theorem State.setReg_pc (i : Fin 8) (v : Byte) : (s.setReg i v).pc = s.pc := rfl
@[simp] theorem State.setReg_sp (i : Fin 8) (v : Byte) : (s.setReg i v).sp = s.sp := rfl
@[simp] theorem State.setReg_flags (i : Fin 8) (v : Byte) : (s.setReg i v).flags = s.flags := rfl
@[simp] theorem State.setReg_run (i : Fin 8) (v : Byte) : (s.setReg i v).run = s.run := rfl
@[simp] theorem State.setReg_err (i : Fin 8) (v : Byte) : (s.setReg i v).err = s.err := rfl
@[simp] theorem State.setReg_out (i : Fin 8) (v : Byte) : (s.setReg i v).out = s.out := rfl
@[simp] theorem State.setReg_mem (i : Fin 8) (v : Byte) : (s.setReg i v).mem = s.mem := rfl

@[simp] theorem State.setPc_regs (a : Nat) : (s.setPc a).regs = s.regs := rfl
@[simp] theorem State.setPc_pc (a : Nat) : (s.setPc a).pc = a := rfl
@[simp] theorem State.setPc_sp (a : Nat) : (s.setPc a).sp = s.sp := rfl
@[simp] theorem State.setPc_flags (a : Nat) : (s.setPc a).flags = s.flags := rfl
@[simp] theorem State.setPc_run (a : Nat) : (s.setPc a).run = s.run := rfl
@[simp] theorem State.setPc_err (a : Nat) : (s.setPc a).err = s.err := rfl
@[simp] theorem State.setPc_out (a : Nat) : (s.setPc a).out = s.out := rfl
@[simp] theorem State.setPc_mem (a : Nat) : (s.setPc a).mem = s.mem := rfl

@[simp] theorem State.setSp_regs (a : Nat) : (s.setSp a).regs = s.regs := rfl
@[simp] theorem State.setSp_pc (a : Nat) : (s.setSp a).pc = s.pc := rfl
@[simp] theorem State.setSp_sp (a : Nat) : (s.setSp a).sp = a := rfl
@[simp] theorem State.setSp_flags (a : Nat) : (s.setSp a).flags = s.flags := rfl
@[simp] theorem State.setSp_run (a : Nat) : (s.setSp a).run = s.run := rfl
@[simp] theorem State.setSp_err (a : Nat) : (s.setSp a).err = s.err := rfl
@[simp] theorem State.setSp_out (a : Nat) : (s.setSp a).out = s.out := rfl
@[simp] theorem State.setSp_mem (a : Nat) : (s.setSp a).mem = s.mem := rfl

@[simp] theorem State.setFlags_regs (f : Flags) : (s.setFlags f).regs = s.regs := rfl
@[simp] theorem State.setFlags_pc (f : Flags) : (s.setFlags f).pc = s.pc := rfl
@[simp] theorem State.setFlags_sp (f : Flags) : (s.setFlags f).sp = s.sp := rfl
@[simp] theorem State.setFlags_flags (f : Flags) : (s.setFlags f).flags = f := rfl
@[simp] theorem State.setFlags_run (f : Flags) : (s.setFlags f).run = s.run := rfl
@[simp] theorem State.setFlags_err (f : Flags) : (s.setFlags f).err = s.err := rfl
@[simp] theorem State.setFlags_out (f : Flags) : (s.setFlags f).out = s.out := rfl
@[simp] theorem State.setFlags_mem (f : Flags) : (s.setFlags f).mem = s.mem := rfl

@[simp] theorem State.setMem_regs (m : Memory) : (s.setMem m).regs = s.regs := rfl
@[simp] theorem State.setMem_pc (m : Memory) : (s.setMem m).pc = s.pc := rfl
@[simp] theorem State.setMem_sp (m : Memory) : (s.setMem m).sp = s.sp := rfl
@[simp] theorem State.setMem_flags (m : Memory) : (s.setMem m).flags = s.flags := rfl
@[simp] theorem State.setMem_run (m : Memory) : (s.setMem m).run = s.run := rfl
@[simp] theorem State.setMem_err (m : Memory) : (s.setMem m).err = s.err := rfl
@[simp] theorem State.setMem_out (m : Memory) : (s.setMem m).out = s.out := rfl
@[simp] theorem State.setMem_mem (m : Memory) : (s.setMem m).mem = m := rfl

@[simp] theorem State.emit_regs (v : Byte) : (s.emit v).regs = s.regs := rfl
@[simp] theorem State.emit_pc (v : Byte) : (s.emit v).pc = s.pc := rfl
@[simp] theorem State.emit_sp (v : Byte) : (s.emit v).sp = s.sp := rfl
@[simp] theorem State.emit_flags (v : Byte) : (s.emit v).flags = s.flags := rfl
@[simp] theorem State.emit_run (v : Byte) : (s.emit v).run = s.run := rfl
@[simp] theorem State.emit_err (v : Byte) : (s.emit v).err = s.err := rfl
@[simp] theorem State.emit_out (v : Byte) : (s.emit v).out = s.out ++ [v] := rfl
@[simp] theorem State.emit_mem (v : Byte) : (s.emit v).mem = s.mem := rfl

@[simp] theorem State.halt_regs : s.halt.regs = s.regs := rfl
@[simp] theorem State.halt_pc : s.halt.pc = s.pc := rfl
@[simp] theorem State.halt_sp : s.halt.sp = s.sp := rfl
@[simp] theorem State.halt_flags : s.halt.flags = s.flags := rfl
@[simp] theorem State.halt_run : s.halt.run = .halted := rfl
@[simp] theorem State.halt_err : s.halt.err = s.err := rfl
@[simp] theorem State.halt_out : s.halt.out = s.out := rfl
@[simp] theorem State.halt_mem : s.halt.mem = s.mem := rfl

@[simp] theorem State.raise_regs (c : ErrorCause) : (s.raise c).regs = s.regs := rfl
@[simp] theorem State.raise_pc (c : ErrorCause) : (s.raise c).pc = s.pc := rfl
@[simp] theorem State.raise_sp (c : ErrorCause) : (s.raise c).sp = s.sp := rfl
@[simp] theorem State.raise_flags (c : ErrorCause) : (s.raise c).flags = s.flags := rfl
@[simp] theorem State.raise_run (c : ErrorCause) : (s.raise c).run = .halted := rfl
@[simp] theorem State.raise_err (c : ErrorCause) : (s.raise c).err = some (s.errorRecord c) := rfl
@[simp] theorem State.raise_out (c : ErrorCause) : (s.raise c).out = s.out := rfl
@[simp] theorem State.raise_mem (c : ErrorCause) : (s.raise c).mem = s.mem := rfl

variable (init : Fin 7 → Byte)

@[simp] theorem State.construct_pc : (State.construct init).pc = 0 := rfl
@[simp] theorem State.construct_sp : (State.construct init).sp = 0xF4 := rfl
@[simp] theorem State.construct_flags : (State.construct init).flags = ⟨false, false, false⟩ := rfl
@[simp] theorem State.construct_run : (State.construct init).run = .running := rfl
@[simp] theorem State.construct_err : (State.construct init).err = none := rfl
@[simp] theorem State.construct_out : (State.construct init).out = [] := rfl
@[simp] theorem State.construct_mem : (State.construct init).mem = [] := rfl

end Sys2Proof.Machine
end

