-- ==== Sys2Proof/Laws/Ops.lean ====
section
/-! SUPPORT. One lemma for each shared operation: everything it can answer. -/

namespace Sys2Proof.Machine

variable {s t : State}

/-- MemRead: a byte inside memory, OutOfBounds outside. -/
theorem memRead_eq (s : State) (a : Int) :
    memRead s a = if 0 ≤ a ∧ a < 256 then .ok (s.mem.read a.toNat) else .error (.outOfBounds .memory a) := rfl

/-- MemRead at an address that is a natural number. -/
theorem memRead_nat (s : State) (a : Nat) :
    memRead s a = if a < 256 then .ok (s.mem.read a) else .error (.outOfBounds .memory a) := by
  rw [memRead_eq]
  by_cases h : a < 256
  · rw [if_pos (by omega), if_pos h, Int.toNat_natCast]
  · rw [if_neg (by omega), if_neg h]

/-- MemWrite: a write inside memory, OutOfBounds outside. -/
theorem memWrite_eq (s : State) (a : Int) (v : Byte) :
    memWrite s a v =
      if 0 ≤ a ∧ a < 256 then .ok (s.setMem (s.mem.write a.toNat v)) else .error (.outOfBounds .memory a) := rfl

/-- A register operand below 8 names its register; any other is OutOfBounds. -/
theorem regIndex_of_lt {r : Byte} (h : r.toNat < 8) : regIndex r = .ok ⟨r.toNat, h⟩ := dif_pos h

theorem regIndex_of_ge {r : Byte} (h : 8 ≤ r.toNat) :
    regIndex r = .error (.outOfBounds .register r.toNat) := dif_neg (by omega)

/-- Reading a register operand. -/
theorem readReg_of_lt (s : State) {r : Byte} (h : r.toNat < 8) : readReg s r = .ok s.regs[r.toNat] := by
  simp only [readReg, regIndex_of_lt h]
  rfl

theorem readReg_of_ge (s : State) {r : Byte} (h : 8 ≤ r.toNat) :
    readReg s r = .error (.outOfBounds .register r.toNat) := by
  simp only [readReg, regIndex_of_ge h]
  rfl

/-- Writing a register operand. -/
theorem writeReg_of_lt (s : State) {r : Byte} (v : Byte) (h : r.toNat < 8) :
    writeReg s r v = .ok (s.setReg ⟨r.toNat, h⟩ v) := by
  simp only [writeReg, regIndex_of_lt h]
  rfl

theorem writeReg_of_ge (s : State) {r : Byte} (v : Byte) (h : 8 ≤ r.toNat) :
    writeReg s r v = .error (.outOfBounds .register r.toNat) := by
  simp only [writeReg, regIndex_of_ge h]
  rfl

/-- Pushing a byte: one below `sp` if that is inside memory. -/
theorem pushByte_ok (s : State) (v : Byte) (h0 : 1 ≤ s.sp) (h1 : s.sp ≤ 256) :
    pushByte s v = .ok ((s.setMem (s.mem.write (s.sp - 1) v)).setSp (s.sp - 1)) := by
  have hn : ((s.sp : Int) - 1).toNat = s.sp - 1 := by omega
  simp only [pushByte, pushAddress, memWrite_eq]
  rw [if_pos (by omega), hn]
  rfl

theorem pushByte_error (s : State) (v : Byte) (h : s.sp = 0 ∨ 256 < s.sp) :
    pushByte s v = .error (.outOfBounds .memory ((s.sp : Int) - 1)) := by
  simp only [pushByte, pushAddress, memWrite_eq]
  rw [if_neg (by omega)]
  rfl

/-- A store, by the loader or by a push, keeps the canonical form of memory. -/
theorem memWrite_wf {a : Int} {v : Byte} (e : memWrite s a v = .ok t) (hm : s.mem.wf = true) :
    t.mem.wf = true := by
  rw [memWrite_eq] at e
  split at e
  · rename_i h
    simp only [Except.ok.injEq] at e
    subst e
    exact Memory.wf_write s.mem (a := a.toNat) v hm (show a.toNat < 256 by omega)
  · cases e

theorem pushByte_wf {v : Byte} (e : pushByte s v = .ok t) (hm : s.mem.wf = true) : t.mem.wf = true := by
  by_cases h : 1 ≤ s.sp ∧ s.sp ≤ 256
  · rw [pushByte_ok s v h.1 h.2] at e
    simp only [Except.ok.injEq] at e
    subst e
    exact Memory.wf_write s.mem (a := s.sp - 1) v hm (show s.sp - 1 < 256 by omega)
  · rw [pushByte_error s v (by omega)] at e
    cases e

/-- The byte on top of the stack. -/
theorem topOfStack_eq (s : State) :
    topOfStack s = if s.sp < 256 then .ok (s.mem.read s.sp) else .error (.outOfBounds .memory s.sp) :=
  memRead_nat s s.sp

/-- The whole window lies in memory: the fetch latches its three bytes. -/
theorem fetch_ok (s : State) (h : s.pc ≤ 253) : fetch s = .ok (windowAt s) := by
  have h0 := memRead_nat s s.pc
  have h1 := memRead_nat s (s.pc + 1)
  have h2 := memRead_nat s (s.pc + 2)
  rw [if_pos (by omega)] at h0 h1 h2
  push_cast at h1 h2
  simp only [fetch, h0, h1, h2]
  rfl

/-- Otherwise the first address outside memory is reported. -/
theorem fetch_error (s : State) (h : 254 ≤ s.pc) :
    fetch s = .error (.outOfBounds .memory (if s.pc < 256 then 256 else s.pc)) := by
  by_cases hp : s.pc < 256
  · have e : s.pc = 254 ∨ s.pc = 255 := by omega
    rw [if_pos hp]
    rcases e with e | e <;> simp only [fetch, e] <;> rfl
  · have h0 := memRead_nat s s.pc
    rw [if_neg hp] at h0 ⊢
    simp only [fetch, h0]
    rfl

/-- The opcode byte a record names, inside and outside memory. -/
theorem State.fetchedOpcode_of_lt (s : State) (h : s.pc < 256) : s.fetchedOpcode = some (s.mem.read s.pc) :=
  if_pos h

theorem State.fetchedOpcode_of_ge (s : State) (h : 256 ≤ s.pc) : s.fetchedOpcode = none :=
  if_neg (Nat.not_lt.mpr h)

/-- Every meaning is a handler put through `finish`. -/
theorem exec_eq_finish (i : Instr) (s : State) : ∃ h, exec i s = finish s h := by
  cases i with
  | ldi r imm => exact ⟨_, execLdi.eq_1 r imm s⟩
  | prn r => exact ⟨_, execPrn.eq_1 r s⟩
  | hlt => exact ⟨_, execHlt.eq_1 s⟩
  | add ra rb => exact ⟨_, execAdd.eq_1 ra rb s⟩
  | mul ra rb => exact ⟨_, execMul.eq_1 ra rb s⟩
  | cmp ra rb => exact ⟨_, execCmp.eq_1 ra rb s⟩
  | push r => exact ⟨_, execPush.eq_1 r s⟩
  | pop r => exact ⟨_, execPop.eq_1 r s⟩
  | call r => exact ⟨_, execCall.eq_1 r s⟩
  | ret => exact ⟨_, execRet.eq_1 s⟩
  | jmp r => exact ⟨_, execJmp.eq_1 r s⟩
  | jeq r => exact ⟨_, execJeq.eq_1 r s⟩
  | jne r => exact ⟨_, execJne.eq_1 r s⟩

/-- The three ways a step that has decoded an instruction ends. -/
theorem finish_cases {h : Except ErrorCause Reply} (e : finish s h = .next t) :
    (∃ c, h = .error c ∧ t = s.raise c) ∨
    (∃ r, h = .ok r ∧ r.keepRunning = true ∧ t = r.state.setPc (r.state.pc + r.advance)) ∨
    (∃ r, h = .ok r ∧ r.keepRunning = false ∧ t = r.state.halt) := by
  cases h with
  | error c =>
    simp only [finish, Host.Outcome.next.injEq] at e
    exact .inl ⟨c, rfl, e.symm⟩
  | ok r =>
    simp only [finish] at e
    split at e
    · rename_i hk
      simp only [Host.Outcome.next.injEq] at e
      exact .inr (.inl ⟨r, rfl, hk, e.symm⟩)
    · rename_i hk
      simp only [Host.Outcome.next.injEq] at e
      exact .inr (.inr ⟨r, rfl, by simpa using hk, e.symm⟩)

/-- Two memories placed at an address agree outside the bytes placed. -/
theorem Memory.read_place_outside (vs : List Byte) (m : Memory) (a c : Nat) (h : c < a ∨ a + vs.length ≤ c) :
    (m.place a vs).read c = m.read c := by
  induction vs generalizing m a with
  | nil => rfl
  | cons v vs ih =>
    simp only [List.length_cons] at h
    simp only [Memory.place]
    rw [ih _ _ (by omega)]
    split
    · exact Memory.read_write_other m v (by omega)
    · rfl

end Sys2Proof.Machine
end

