-- ==== Sys2Proof/Laws/PerInstr.lean ====
section
/-! SUPPORT. One lemma for each constructor: an instruction's length in the image is one byte and its operand
bytes, at most the three bytes of the fetch window (30_encoding.md R57, R58), under any opcode map. -/

namespace Sys2Proof.Laws.ImageLength

/-- The bytes of an instruction number its length, and fit in the fetch window. -/
def Statement (i : Instr) : Prop :=
  ∀ m : OpcodeMap, (encodeWith m i).length = i.length ∧ i.length ≤ 3

theorem ldi (r imm : Byte) : Statement (.ldi r imm) := fun _ => ⟨rfl, (by decide : 1 + 2 ≤ 3)⟩
theorem prn (r : Byte) : Statement (.prn r) := fun _ => ⟨rfl, (by decide : 1 + 1 ≤ 3)⟩
theorem hlt : Statement .hlt := fun _ => ⟨rfl, (by decide : 1 + 0 ≤ 3)⟩
theorem add (ra rb : Byte) : Statement (.add ra rb) := fun _ => ⟨rfl, (by decide : 1 + 2 ≤ 3)⟩
theorem mul (ra rb : Byte) : Statement (.mul ra rb) := fun _ => ⟨rfl, (by decide : 1 + 2 ≤ 3)⟩
theorem cmp (ra rb : Byte) : Statement (.cmp ra rb) := fun _ => ⟨rfl, (by decide : 1 + 2 ≤ 3)⟩
theorem push (r : Byte) : Statement (.push r) := fun _ => ⟨rfl, (by decide : 1 + 1 ≤ 3)⟩
theorem pop (r : Byte) : Statement (.pop r) := fun _ => ⟨rfl, (by decide : 1 + 1 ≤ 3)⟩
theorem call (r : Byte) : Statement (.call r) := fun _ => ⟨rfl, (by decide : 1 + 1 ≤ 3)⟩
theorem ret : Statement .ret := fun _ => ⟨rfl, (by decide : 1 + 0 ≤ 3)⟩
theorem jmp (r : Byte) : Statement (.jmp r) := fun _ => ⟨rfl, (by decide : 1 + 1 ≤ 3)⟩
theorem jeq (r : Byte) : Statement (.jeq r) := fun _ => ⟨rfl, (by decide : 1 + 1 ≤ 3)⟩
theorem jne (r : Byte) : Statement (.jne r) := fun _ => ⟨rfl, (by decide : 1 + 1 ≤ 3)⟩

end Sys2Proof.Laws.ImageLength
end

