-- ==== Sys2Proof/Tests/Slice0.lean ====
section
/-! SUPPORT. The model's own tests.  Expected results are the spec's: the encodings of R58 and R60, the examples
of R86 to R102 and the vectors V-* of 95_test_vectors.md.  The witnesses show that the hypotheses of each
statement can be met, at the boundary of each of its clauses. -/

namespace Sys2Proof.Tests

open Sys2Proof.Machine

/-! ## Helpers -/

/-- A freshly constructed machine with INIT_REGS all 0, which no test takes for the reset state. -/
def base : State := State.construct fun _ => 0

/-- The same machine with bytes placed from an address on, and `pc` there. -/
def at_ (a : Nat) (bytes : List Byte) (s : State) : State :=
  { s with pc := a, mem := s.mem.place a bytes }

/-- The machine with one register set. -/
def withReg (i : Fin 8) (v : Byte) (s : State) : State := s.setReg i v

/-- The outcome is a next state of which `p` holds. -/
def nextIs (o : Host.Outcome State Fault Refusal) (p : State → Bool) : Bool :=
  match o with
  | .next t => p t
  | _ => false

/-- The outcome is the fatal halt with this record, and nothing but `run` and `err` has changed. -/
def errsWith (s : State) (o : Host.Outcome State Fault Refusal) (c : ErrorCause) (pc : Nat) (op : Option Byte) : Bool :=
  nextIs o fun t => decide (t = { s with run := .halted, err := some ⟨c, pc, op⟩ })

/-! ## Well-formedness: a register operand of 8 in each position is refused -/

theorem test_wellFormed_refuses_r8 :
    ∀ i ∈ ([.ldi 8 0, .prn 8, .add 8 0, .add 0 8, .mul 8 0, .mul 0 8, .cmp 8 0, .cmp 0 8, .push 8, .pop 8,
      .call 8, .jmp 8, .jeq 8, .jne 8] : List Instr), i.wellFormed = false := by decide

theorem test_wellFormed_accepts_r7 :
    ∀ i ∈ ([.ldi 7 255, .prn 7, .hlt, .add 7 7, .mul 7 7, .cmp 7 7, .push 7, .pop 7, .call 7, .ret, .jmp 7,
      .jeq 7, .jne 7] : List Instr), i.wellFormed = true := by decide

/-! ## Decoding: one word of each row, bit by bit from R58 and R60 -/

theorem test_decode_ldi : decodeBytes opcodeMap [0b10000010, 0b00000000, 0b00001000] = .ok (.ldi 0 8) := by decide
theorem test_decode_prn : decodeBytes opcodeMap [0b01000111, 0b00000010, 0b10101011] = .ok (.prn 2) := by decide
theorem test_decode_hlt : decodeBytes opcodeMap [0b00000001, 0b00001001, 0b00001001] = .ok .hlt := by decide
theorem test_decode_add : decodeBytes opcodeMap [0b10100000, 0b00000000, 0b00000001] = .ok (.add 0 1) := by decide
theorem test_decode_mul : decodeBytes opcodeMap [0b10100010, 0b00000010, 0b00000001] = .ok (.mul 2 1) := by decide
theorem test_decode_cmp : decodeBytes opcodeMap [0b10100111, 0b00000100, 0b00000101] = .ok (.cmp 4 5) := by decide
theorem test_decode_push : decodeBytes opcodeMap [0b01000101, 0b00000111, 0b00000000] = .ok (.push 7) := by decide
theorem test_decode_pop : decodeBytes opcodeMap [0b01000110, 0b00000001, 0b11111111] = .ok (.pop 1) := by decide
theorem test_decode_call : decodeBytes opcodeMap [0b01010000, 0b00000001, 0b00000000] = .ok (.call 1) := by decide
theorem test_decode_ret : decodeBytes opcodeMap [0b00010001, 0b00000000, 0b00000000] = .ok .ret := by decide
theorem test_decode_jmp : decodeBytes opcodeMap [0b01010100, 0b00000010, 0b00000000] = .ok (.jmp 2) := by decide
theorem test_decode_jeq : decodeBytes opcodeMap [0b01010101, 0b00001000, 0b00000000] = .ok (.jeq 8) := by decide
theorem test_decode_jne : decodeBytes opcodeMap [0b01010110, 0b00000011, 0b00000000] = .ok (.jne 3) := by decide

/-- V-F1, V-F2 (R65): bytes that are no opcode, and a window that is not whole. -/
theorem test_decode_rejects_by_name :
    decodeBytes opcodeMap [0x00, 0, 0] = .error (.unrecognizedOpcode 0x00) ∧
    decodeBytes opcodeMap [0xFF, 0, 0] = .error (.unrecognizedOpcode 0xFF) ∧
    decodeBytes opcodeMap [0x01, 0] = .error (.truncatedWindow 2) := by decide

/-- R65: "243 of the 256 byte values under the default map, including 0x00". -/
theorem test_illegal_opcodes_are_243 :
    ((List.range 256).filter fun v => (decodeOpcode opcodeMap (BitVec.ofNat 8 v)).isNone).length = 243 := by
  decide +kernel

/-- R62: bits 7:6 are the operand count, bit 5 the ALU's, bit 4 may set pc (information only). -/
theorem test_opcode_field_layout :
    ∀ n ∈ Mnemonic.all, (opcodeMap n).toNat / 64 = n.operandCount ∧
      ((opcodeMap n).getLsbD 5 = true ↔ n ∈ [Mnemonic.add, .mul, .cmp]) ∧
      ((opcodeMap n).getLsbD 4 = true ↔ n ∈ [Mnemonic.call, .ret, .jmp, .jeq, .jne]) := by decide

/-- Words numbered as the opcode table numbers them: the first byte is bits 7..0. -/
theorem test_decodeTableWord :
    decodeTableWord 24 0x080082 = some (.ldi 0 8) ∧ decodeTableWord 16 0x0347 = some (.prn 3) ∧
    decodeTableWord 8 0x01 = some .hlt ∧ decodeTableWord 8 0x82 = some (.ldi 0 0) ∧
    decodeTableWord 8 0x00 = none := by decide

/-- One word of each row, as the FIRST instruction after reset: every one takes a step, none errs, and only
HLT halts. -/
theorem test_every_row_runs_from_reset :
    ∀ p ∈ ([(24, 0x080082, true), (16, 0x0347, true), (8, 0x01, false), (24, 0x0100A0, true), (24, 0x0100A2, true),
      (24, 0x0302A7, true), (16, 0x0045, true), (16, 0x0146, true), (16, 0x0150, true), (8, 0x11, true),
      (16, 0x0254, true), (16, 0x0355, true), (16, 0x0356, true)] : List (Nat × Nat × Bool)),
    nextIs (step (State.reset.withFetchWord p.1 p.2.1))
      (fun t => t.err.isNone && (decide (t.run = .running) == p.2.2)) = true := by decide

/-! ## Instructions: the spec's examples and vectors -/

/-- R86, V-D1. -/
theorem test_ldi : nextIs (step (at_ 0 [0x82, 3, 255] base)) (fun t =>
    t.regs[3] == 255 && t.pc == 3 && t.flags == base.flags) = true := by decide
/-- V-D2: R7 is written and `sp` stays. -/
theorem test_ldi_r7_leaves_sp : nextIs (step (at_ 0 [0x82, 7, 0] base)) (fun t =>
    t.regs[7] == 0 && t.sp == 0xF4) = true := by decide
/-- V-D5. -/
theorem test_prn_r7 : nextIs (step (at_ 0 [0x47, 7] base)) (fun t => t.out == [244] && t.pc == 2) = true := by decide
/-- V-D6: an erring PRN emits nothing. -/
theorem test_prn_r9 : errsWith (at_ 0 [0x47, 9] { base with out := [1] })
    (step (at_ 0 [0x47, 9] { base with out := [1] })) (.outOfBounds .register 9) 0 (some 0x47) = true := by decide
/-- V-D8. -/
theorem test_hlt_253 : nextIs (step (at_ 253 [0x01, 9, 9] base)) (fun t =>
    t.run == .halted && t.err == none && t.pc == 253) = true := by decide
/-- V-D9: not a normal halt. -/
theorem test_hlt_254 : errsWith (at_ 254 [0x01, 0] base) (step (at_ 254 [0x01, 0] base))
    (.outOfBounds .memory 256) 254 (some 0x01) = true := by decide
/-- R91, V-A3. -/
theorem test_add_wraps : nextIs (step (at_ 0 [0xA0, 0, 1] (withReg 0 200 (withReg 1 100 base)))) (fun t =>
    t.regs[0] == 44 && t.regs[1] == 100 && t.pc == 3) = true := by decide
/-- V-A7: `op1` is checked first. -/
theorem test_add_errs : errsWith (at_ 0 [0xA0, 8, 9] base) (step (at_ 0 [0xA0, 8, 9] base))
    (.outOfBounds .register 8) 0 (some 0xA0) = true := by decide
/-- V-A10. -/
theorem test_mul_wraps : nextIs (step (at_ 0 [0xA2, 0, 1] (withReg 0 255 (withReg 1 255 base)))) (fun t =>
    t.regs[0] == 1) = true := by decide
/-- V-A12: a register named twice. -/
theorem test_mul_square : nextIs (step (at_ 0 [0xA2, 1, 1] (withReg 1 15 base))) (fun t =>
    t.regs[1] == 225) = true := by decide
/-- V-A17: unsigned. -/
theorem test_cmp_unsigned : nextIs (step (at_ 0 [0xA7, 0, 1] (withReg 0 0x80 (withReg 1 0x7F base)))) (fun t =>
    t.flags == ⟨false, true, false⟩ && t.pc == 3) = true := by decide
/-- V-A19: an erring CMP writes no flag. -/
theorem test_cmp_errs : errsWith (at_ 0 [0xA7, 0, 8] { base with flags := ⟨false, true, false⟩ })
    (step (at_ 0 [0xA7, 0, 8] { base with flags := ⟨false, true, false⟩ }))
    (.outOfBounds .register 8) 0 (some 0xA7) = true := by decide
/-- V-S4: code at address 0 is overwritten with no error. -/
theorem test_push_to_0 : nextIs (step (at_ 0 [0x45, 0] { withReg 0 5 base with sp := 1 })) (fun t =>
    t.mem.read 0 == 5 && t.sp == 0 && t.pc == 2) = true := by decide
/-- V-S3. -/
theorem test_push_full : errsWith (at_ 0 [0x45, 0] { base with sp := 0 }) (step (at_ 0 [0x45, 0] { base with sp := 0 }))
    (.outOfBounds .memory (-1)) 0 (some 0x45) = true := by decide
/-- V-S11. -/
theorem test_pop_last : nextIs (step (at_ 0 [0x46, 0] { base with sp := 255, mem := [(255, 3)] })) (fun t =>
    t.regs[0] == 3 && t.sp == 256 && t.mem.read 255 == 3) = true := by decide
/-- V-S10: the register is checked before memory. -/
theorem test_pop_errs : errsWith (at_ 0 [0x46, 8] { base with sp := 256 }) (step (at_ 0 [0x46, 8] { base with sp := 256 }))
    (.outOfBounds .register 8) 0 (some 0x46) = true := by decide
/-- V-C16. -/
theorem test_call_253 : nextIs (step (at_ 253 [0x50, 1, 0] base)) (fun t =>
    t.mem.read 0xF3 == 255 && t.sp == 0xF3 && t.pc == 0) = true := by decide
/-- V-C4. -/
theorem test_call_full : errsWith (at_ 3 [0x50, 1] { base with sp := 0 }) (step (at_ 3 [0x50, 1] { base with sp := 0 }))
    (.outOfBounds .memory (-1)) 3 (some 0x50) = true := by decide
/-- R99, V-C2: `sp` is unchanged. -/
theorem test_ret : nextIs (step (at_ 30 [0x11] { base with sp := 0xF3, mem := [(0xF3, 8)] })) (fun t =>
    t.pc == 8 && t.sp == 0xF3) = true := by decide
/-- V-C5. -/
theorem test_ret_errs : errsWith (at_ 30 [0x11] { base with sp := 256 }) (step (at_ 30 [0x11] { base with sp := 256 }))
    (.outOfBounds .memory 256) 30 (some 0x11) = true := by decide
/-- V-C15: the target 254 is not checked by the jump. -/
theorem test_jmp_254 : nextIs (step (at_ 3 [0x54, 0] (withReg 0 254 base))) (fun t => t.pc == 254) = true := by decide
/-- V-C6: a jump to itself changes nothing. -/
theorem test_jmp_self : nextIs (step (at_ 4 [0x54, 2] (withReg 2 4 base))) (fun t =>
    t == at_ 4 [0x54, 2] (withReg 2 4 base)) = true := by decide
/-- V-C8. -/
theorem test_jeq_taken : nextIs (step (at_ 10 [0x55, 3] { withReg 3 20 base with flags := ⟨true, false, false⟩ }))
    (fun t => t.pc == 20) = true := by decide
/-- V-C10: the register of an untaken jump is not accessed. -/
theorem test_jeq_untaken_r8 : nextIs (step (at_ 10 [0x55, 8] base)) (fun t => t.pc == 12 && t.err == none) = true := by decide
/-- V-C12: taken after reset. -/
theorem test_jne_taken : nextIs (step (at_ 10 [0x56, 3] (withReg 3 20 base))) (fun t => t.pc == 20) = true := by decide
/-- V-C13. -/
theorem test_jne_untaken : nextIs (step (at_ 10 [0x56, 3] { base with flags := ⟨true, false, false⟩ }))
    (fun t => t.pc == 12) = true := by decide

/-! ## The step, the load port and the views -/

/-- V-F1. -/
theorem test_step_unrecognized : errsWith base (step base) .unrecognizedOpcode 0 (some 0) = true := by decide
/-- V-F3, V-F4: no opcode was fetched at 256; at 255 the fetch faults before the decode. -/
theorem test_step_fetch_faults :
    errsWith { base with pc := 256 } (step { base with pc := 256 }) (.outOfBounds .memory 256) 256 none = true ∧
    errsWith { base with pc := 255 } (step { base with pc := 255 }) (.outOfBounds .memory 256) 255 (some 0) = true := by
  decide
/-- R34: bit 0 is E, bit 1 is G, bit 2 is L. -/
theorem test_flags_pack : Flags.pack ⟨true, false, false⟩ = 0b001 ∧ Flags.pack ⟨false, true, false⟩ = 0b010 ∧
    Flags.pack ⟨false, false, true⟩ = 0b100 := by decide
/-- R116: the default exit statuses. -/
theorem test_exit_status : exitStatus 0 = 0 ∧ exitStatus 1 = 2 ∧ exitStatus 2 = 3 := by decide
/-- R43: the image from address 0, in order. -/
theorem test_load : (base.load [0x82, 0, 8, 0x47, 0, 0x01]).mem = [(0, 0x82), (2, 8), (3, 0x47), (5, 0x01)] := by decide
/-- R70, R71: the source's own lines. -/
theorem test_render : (Instr.ldi 0 8).render = "LDI R0,8" ∧ (Instr.prn 0).render = "PRN R0" ∧ Instr.hlt.render = "HLT" := by
  decide

/-! ## Witnesses: the hypotheses of each statement can be met, at the boundaries of its clauses -/

theorem witness_DecodeInvertsOpcodeMap : Function.Injective opcodeMap := by
  intro a b
  cases a <;> cases b <;> decide

theorem witness_DecodeAfterEncode : Function.Injective opcodeMap ∧ 3 ≤ (encodeWith opcodeMap (.ldi 7 255) ++ []).length ∧
    3 ≤ (encodeWith opcodeMap .ret ++ [1, 2]).length := by
  exact ⟨witness_DecodeInvertsOpcodeMap, by decide⟩

theorem witness_EncodeAfterDecode : decodeBytes opcodeMap [0x47, 255, 9] = .ok (.prn 255) := by decide

/-- Two used operand bytes, one, none, and an opcode with no entry. -/
theorem witness_UnusedOperandBytesAreIgnored :
    (∀ n, decodeOpcode opcodeMap 0x47 = some n →
      (1 ≤ n.operandCount → (3 : Byte) = 3) ∧ (2 ≤ n.operandCount → (9 : Byte) = 4)) ∧
    (∀ n, decodeOpcode opcodeMap 0x11 = some n →
      (1 ≤ n.operandCount → (3 : Byte) = 1) ∧ (2 ≤ n.operandCount → (9 : Byte) = 4)) := by
  constructor <;> intro n <;> cases n <;> decide

/-- `pc` at the last address a window fits at. -/
theorem witness_StepRunsDecodedInstruction : let s := at_ 253 [0x82, 0, 7] base
    s.run = .running ∧ s.pc + 2 < 256 ∧
    decodeBytes opcodeMap [s.mem.read s.pc, s.mem.read (s.pc + 1), s.mem.read (s.pc + 2)] = .ok (.ldi 0 7) := by decide

theorem witness_PlacedInstructionIsRun : base.run = .running ∧ base.pc + 2 < 256 ∧ base.mem.wf = true ∧
    decodeTableWord 24 0x080082 = some (.ldi 0 8) := by decide

/-- `pc` = 254 and 255 (the opcode is fetched) and 256 (it is not). -/
theorem witness_FetchOutsideMemoryHalts : base.run = .running ∧ 256 ≤ 254 + 2 ∧ 256 ≤ 256 + 2 ∧
    errsWith { base with pc := 254 } (step { base with pc := 254 }) (.outOfBounds .memory 256) 254 (some 0) = true := by decide

theorem witness_UnrecognizedOpcodeHalts : base.run = .running ∧ base.pc + 2 < 256 ∧
    ∀ n : Mnemonic, opcodeMap n ≠ base.mem.read base.pc := by
  refine ⟨by decide, by decide, fun n => ?_⟩
  cases n <;> decide

/-- A step that errs, and a HALTED machine. -/
theorem witness_HaltedIsTerminal : nextIs (step base) (fun t => decide (t.err ≠ base.err)) = true ∧
    ({ base with run := .halted } : State).run = .halted := by decide

theorem witness_RunningAlwaysSteps : base.run = .running ∧ (∃ t, step base = .next t) := ⟨rfl, _, rfl⟩

/-- V-C6. -/
theorem witness_SelfJumpNeverHalts : let s := at_ 4 [0x54, 7] (withReg 7 4 base)
    s.run = .running ∧ s.pc + 2 < 256 ∧
    decodeBytes opcodeMap [s.mem.read s.pc, s.mem.read (s.pc + 1), s.mem.read (s.pc + 2)] = .ok (.jmp 7) ∧
    s.regs[7].toNat = s.pc := by decide

/-- A fetch error, a decode error, a register error, a memory error behind it, and none. -/
theorem witness_FirstErrorIsReported :
    stepErrors opcodeMap { base with pc := 255 } =
      [.outOfBounds .memory 256, .outOfBounds .memory 257, .unrecognizedOpcode] ∧
    stepErrors opcodeMap (at_ 0 [0x45, 8] { base with sp := 0 }) =
      [.outOfBounds .register 8, .outOfBounds .memory (-1)] ∧
    stepErrors opcodeMap (at_ 0 [0x45, 7] base) = [] := by decide

theorem witness_HandlerReportsFirstError :
    handlerErrors (.add 8 9) base = [.outOfBounds .register 8, .outOfBounds .register 9] ∧
    handlerErrors (.pop 7) { base with sp := 256 } = [.outOfBounds .memory 256] ∧
    handlerErrors (.jeq 8) base = [] ∧ handlerErrors (.jne 8) base = [.outOfBounds .register 8] ∧
    handlerErrors (.pop 7) { base with sp := 255 } = [] := by decide

theorem witness_FaultingStepCommitsNothing : nextIs (step base) (fun t => decide (t.err ≠ base.err)) = true := by decide

/-- A step that sets the record, a step from a state that holds one, the invariant, and HLT's halt. -/
theorem witness_ErrorRecordIsSetOnce :
    nextIs (step base) (fun t => decide (base.err = none ∧ t.run = .halted ∧ t.err ≠ none)) = true ∧
    nextIs (step { base with err := some ⟨.unrecognizedOpcode, 0, none⟩ }) (fun t => t.err.isSome) = true ∧
    nextIs (step (at_ 0 [0x01] base)) (fun t => decide (t.run = .halted ∧ t.err = none)) = true := by decide

theorem witness_WellFormedRaisesNoRegisterError : (Instr.push 7).wellFormed = true ∧
    nextIs (exec (.push 7) { base with sp := 0 }) (fun t => decide (t.err ≠ base.err)) = true := by decide

theorem witness_StatusCodes : base.err = none ∧
    ({ base with err := some ⟨.outOfBounds .memory 256, 254, some 1⟩ } : State).errorCode = 2 := by decide

theorem witness_LdiLoadsImmediate : (7 : Byte).toNat < 8 ∧ 8 ≤ (8 : Byte).toNat := by decide
theorem witness_PrnEmitsRegister : (7 : Byte).toNat < 8 ∧ 8 ≤ (8 : Byte).toNat ∧ (6 : Byte).toNat < 7 := by decide
theorem witness_AddAndMulWrapSilently : (7 : Byte).toNat < 8 ∧ (0 : Byte).toNat < 8 := by decide
theorem witness_CmpSetsExactlyOneFlag : (7 : Byte).toNat < 8 ∧ (0 : Byte).toNat < 8 := by decide
theorem witness_AluChecksFirstOperandFirst : Instr.add 8 9 = .add 8 9 ∧ 8 ≤ (8 : Byte).toNat ∧
    (7 : Byte).toNat < 8 ∧ 8 ≤ (255 : Byte).toNat := by decide

/-- Each tag answers a state. -/
theorem witness_AluMutatesRegisterOrFlags : (∃ t, alu .add 7 0 base = .ok t) ∧ (∃ t, alu .mul 7 0 base = .ok t) ∧
    (∃ t, alu .cmp 7 0 base = .ok t) := ⟨⟨_, rfl⟩, ⟨_, rfl⟩, ⟨_, rfl⟩⟩

/-- `sp` = 1 and 256 store, 0 and 257 err. -/
theorem witness_PushStoresBelowStackPointer : (7 : Byte).toNat < 8 ∧ 1 ≤ 1 ∧ 256 ≤ 256 ∧ base.mem.wf = true ∧
    8 ≤ (8 : Byte).toNat ∧
    nextIs (exec (.push 7) { base with sp := 256 }) (fun t => t.mem.read 255 == 0xF4 && t.sp == 255) = true ∧
    errsWith { base with sp := 257 } (exec (.push 7) { base with sp := 257 }) (.outOfBounds .memory 256) 0 (some 0) = true := by
  decide

/-- `sp` = 255 loads, 256 errs. -/
theorem witness_PopLoadsTopOfStack : (7 : Byte).toNat < 8 ∧ 255 < 256 ∧ 8 ≤ (8 : Byte).toNat ∧
    errsWith { base with sp := 256 } (exec (.pop 7) { base with sp := 256 }) (.outOfBounds .memory 256) 0 (some 0) = true := by
  decide

theorem witness_PushThenPopRestores : (7 : Byte).toNat < 8 ∧ 1 ≤ base.sp ∧ base.sp ≤ 256 ∧ base.mem.wf = true := by decide

theorem witness_CallPushesReturnAddress : (7 : Byte).toNat < 8 ∧ 1 ≤ base.sp ∧ base.sp ≤ 256 ∧
    ({ base with pc := 253 } : State).pc ≤ 253 ∧ base.mem.wf = true ∧ 8 ≤ (8 : Byte).toNat ∧
    errsWith { base with sp := 0 } (exec (.call 7) { base with sp := 0 }) (.outOfBounds .memory (-1)) 0 (some 0) = true := by
  decide

theorem witness_RetReadsWithoutPopping : ({ base with sp := 255 } : State).sp < 256 ∧
    256 ≤ ({ base with sp := 256 } : State).sp := by decide

theorem witness_JmpSetsProgramCounter : (7 : Byte).toNat < 8 ∧ 8 ≤ (8 : Byte).toNat := by decide

theorem witness_ConditionalJumpsReadEqual : ({ base with flags := ⟨true, false, false⟩ } : State).flags.e = true ∧
    base.flags.e = false ∧ (7 : Byte).toNat < 8 ∧ 8 ≤ (8 : Byte).toNat := by decide

theorem witness_CallThenRetResumes : (7 : Byte).toNat < 8 ∧ 1 ≤ base.sp ∧ base.sp ≤ 256 ∧ base.pc ≤ 253 ∧
    base.mem.wf = true := by decide

/-- Equal registers and unequal ones. -/
theorem witness_BranchAfterCompare : (7 : Byte).toNat < 8 ∧ base.regs[0] = base.regs[1] ∧ base.regs[0] ≠ base.regs[7] := by
  decide

theorem witness_OtherRegistersUnchanged : (∃ t, exec (.pop 6) base = .next t) ∧
    ∀ r, destination (.pop 6) = some r → r.toNat ≠ (7 : Fin 8) := by
  refine ⟨⟨_, rfl⟩, fun r h => ?_⟩
  cases h
  decide

theorem witness_OnlyCompareWritesFlags : (∃ t, exec (.add 0 1) base = .next t) ∧ (∀ ra rb, Instr.add 0 1 ≠ .cmp ra rb) ∧
    (∃ t, exec (.cmp 7 0) base = .next t) ∧ (∃ t, exec (.cmp 7 8) base = .next t) ∧
    nextIs (step (at_ 0 [0xA7, 7, 0] base)) (fun t => decide (t.flags ≠ base.flags)) = true :=
  ⟨⟨_, rfl⟩, by simp, ⟨_, rfl⟩, ⟨_, rfl⟩, by decide⟩

/-- A PUSH and a POP that do not err, and ones that do. -/
theorem witness_OnlyStackInstructionsMoveSp : (∃ t, exec (.push 7) base = .next t) ∧ handlerErrors (.push 7) base = [] ∧
    handlerErrors (.push 8) base ≠ [] ∧ handlerErrors (.pop 7) base = [] ∧ handlerErrors (.pop 8) base ≠ [] :=
  ⟨⟨_, rfl⟩, by decide, by decide, by decide, by decide⟩

theorem witness_OtherMemoryUnchanged : (∃ t, exec (.push 7) base = .next t) ∧
    storeAddress (.push 7) base ≠ some ((0xF4 : Nat) : Int) ∧ storeAddress (.pop 7) base ≠ some ((0xF3 : Nat) : Int) :=
  ⟨⟨_, rfl⟩, by decide, by decide⟩

theorem witness_OnlyPrnAppendsOutput : (∃ t, exec .hlt base = .next t) ∧ (∀ r, Instr.hlt ≠ .prn r) ∧
    (∃ t, exec (.prn 7) base = .next t) ∧ (∃ t, exec (.prn 8) base = .next t) ∧ (∃ t, step base = .next t) :=
  ⟨⟨_, rfl⟩, by simp, ⟨_, rfl⟩, ⟨_, rfl⟩, ⟨_, rfl⟩⟩

theorem witness_ProgramCounterTargetOrAdvance : (∃ t, exec (.jne 7) base = .next t) ∧ handlerErrors (.jne 7) base = [] ∧
    handlerErrors (.jne 8) base ≠ [] := ⟨⟨_, rfl⟩, by decide, by decide⟩

theorem witness_UnaccessedRegisterHasNoEffect : (∃ t, exec (.add 0 1) base = .next t) ∧
    ∀ r ∈ accessedRegisters (.add 0 1) base, r.toNat ≠ (2 : Fin 8) := ⟨⟨_, rfl⟩, by decide⟩

/-- An image of exactly 256 bytes (V-F8). -/
theorem witness_LoadWritesProgram : (List.replicate 256 (1 : Byte)).length ≤ 256 :=
  le_of_eq List.length_replicate

/-- An image of 257 bytes (V-F7). -/
theorem witness_OverlongLoadHalts : 256 < (List.replicate 257 (1 : Byte)).length := by
  rw [List.length_replicate]
  decide

theorem base_inv : base.Inv :=
  { memory := rfl, pcRange := by decide, spRange := by decide, flags := rfl
    errHalted := fun h => absurd rfl h, errLegal := fun r h => by cases h }

theorem witness_InvariantKeptByLoad : base.Inv := base_inv

theorem witness_InvariantKeptByStep : base.Inv ∧ ∃ t, step base = .next t := ⟨base_inv, _, rfl⟩

theorem witness_ReachableStatesHaveInvariant : ∃ t, Host.Core.run Sys2Proof.core 0 (base.load [0x01]) = .next t := ⟨_, rfl⟩

end Sys2Proof.Tests
end

/-! PROOFS. What a step can do, said once: how a step splits into fetch, decode and execute, and what each
instruction leaves when it does not err. -/

namespace Sys2Proof.Machine

variable {m : OpcodeMap} {s t : State} {i : Instr}

/-- `Completes s i t`: the instruction `i` meets no error in `s` and leaves `t`, with the end of its step done
(41_data_movement.md to 44_control.md).  The premises of a constructor are all that its handler checks;
`exec_of_completes` and `exec_cases` tie the relation to `exec`. -/
inductive Completes (s : State) : Instr → State → Prop
  | ldi {r imm : Byte} (h : r.toNat < 8) :
    Completes s (.ldi r imm) ((s.setReg ⟨r.toNat, h⟩ imm).setPc (s.pc + 3))
  | prn {r : Byte} (h : r.toNat < 8) : Completes s (.prn r) ((s.emit s.regs[r.toNat]).setPc (s.pc + 2))
  | hlt : Completes s .hlt s.halt
  | add {ra rb : Byte} (ha : ra.toNat < 8) (hb : rb.toNat < 8) :
    Completes s (.add ra rb)
      ((s.setReg ⟨ra.toNat, ha⟩ (s.regs[ra.toNat] + s.regs[rb.toNat])).setPc (s.pc + 3))
  | mul {ra rb : Byte} (ha : ra.toNat < 8) (hb : rb.toNat < 8) :
    Completes s (.mul ra rb)
      ((s.setReg ⟨ra.toNat, ha⟩ (s.regs[ra.toNat] * s.regs[rb.toNat])).setPc (s.pc + 3))
  | cmp {ra rb : Byte} (ha : ra.toNat < 8) (hb : rb.toNat < 8) :
    Completes s (.cmp ra rb)
      ((s.setFlags (compareFlags s.regs[ra.toNat] s.regs[rb.toNat])).setPc (s.pc + 3))
  | push {r : Byte} (h : r.toNat < 8) (hpos : 1 ≤ s.sp) (hle : s.sp ≤ 256) :
    Completes s (.push r)
      (((s.setMem (s.mem.write (s.sp - 1) s.regs[r.toNat])).setSp (s.sp - 1)).setPc (s.pc + 2))
  | pop {r : Byte} (h : r.toNat < 8) (hsp : s.sp < 256) :
    Completes s (.pop r)
      (((s.setReg ⟨r.toNat, h⟩ (s.mem.read s.sp)).setSp (s.sp + 1)).setPc (s.pc + 2))
  | call {r : Byte} (h : r.toNat < 8) (hpos : 1 ≤ s.sp) (hle : s.sp ≤ 256) :
    Completes s (.call r)
      (((s.setMem (s.mem.write (s.sp - 1) (returnAddress s))).setSp (s.sp - 1)).setPc s.regs[r.toNat].toNat)
  | ret (hsp : s.sp < 256) : Completes s .ret (s.setPc (s.mem.read s.sp).toNat)
  | jmp {r : Byte} (h : r.toNat < 8) : Completes s (.jmp r) (s.setPc s.regs[r.toNat].toNat)
  | jeqTaken {r : Byte} (he : s.flags.e = true) (h : r.toNat < 8) :
    Completes s (.jeq r) (s.setPc s.regs[r.toNat].toNat)
  | jeqUntaken {r : Byte} (he : s.flags.e = false) : Completes s (.jeq r) (s.setPc (s.pc + 2))
  | jneTaken {r : Byte} (he : s.flags.e = false) (h : r.toNat < 8) :
    Completes s (.jne r) (s.setPc s.regs[r.toNat].toNat)
  | jneUntaken {r : Byte} (he : s.flags.e = true) : Completes s (.jne r) (s.setPc (s.pc + 2))

/-! ### The first error of a list of accesses -/

theorem registerErrors_cons_of_lt {r : Byte} (rs : List Byte) (h : r.toNat < 8) :
    registerErrors (r :: rs) = registerErrors rs := by
  simp [registerErrors, namesRegister, h]

theorem registerErrors_cons_of_ge {r : Byte} (rs : List Byte) (h : 8 ≤ r.toNat) :
    registerErrors (r :: rs) = .outOfBounds .register r.toNat :: registerErrors rs := by
  simp [registerErrors, namesRegister, h]

theorem memoryErrors_singleton_outside {a : Int} (h : a < 0 ∨ 256 ≤ a) :
    memoryErrors [a] = [.outOfBounds .memory a] := by
  simpa [memoryErrors] using h

/-! ### What an instruction leaves -/

/-- `Completes` is a description of `exec`: an instruction that meets no error leaves the state it names. -/
theorem exec_of_completes (h : Completes s i t) : exec i s = .next t := by
  cases h with
  | ldi h => simp only [exec, execLdi, writeReg_of_lt s _ h]; rfl
  | prn h => simp only [exec, execPrn, readReg_of_lt s h]; rfl
  | hlt => rfl
  | add ha hb | mul ha hb =>
    simp only [exec, execAdd, execMul, aluHandler, alu, readReg_of_lt s ha, readReg_of_lt s hb]
    simp only [bind, Except.bind, writeReg_of_lt s _ ha]
    rfl
  | cmp ha hb => simp only [exec, execCmp, aluHandler, alu, readReg_of_lt s ha, readReg_of_lt s hb]; rfl
  | push h hpos hle =>
    simp only [exec, execPush, readReg_of_lt s h]
    simp only [bind, Except.bind, pushByte_ok s _ hpos hle]
    rfl
  | pop h hsp => simp only [exec, execPop, regIndex_of_lt h, topOfStack_eq, if_pos hsp]; rfl
  | call h hpos hle => simp only [exec, execCall, readReg_of_lt s h, pushByte_ok s _ hpos hle]; rfl
  | ret hsp => simp only [exec, execRet, topOfStack_eq, if_pos hsp]; rfl
  | jmp h => simp only [exec, execJmp, readReg_of_lt s h]; rfl
  | jeqTaken he h => simp only [exec, execJeq, jumpIf, he, readReg_of_lt s h]; rfl
  | jeqUntaken he => simp only [exec, execJeq, jumpIf, he]; rfl
  | jneTaken he h => simp only [exec, execJne, jumpIf, he, readReg_of_lt s h]; rfl
  | jneUntaken he => simp only [exec, execJne, jumpIf, he]; rfl

/-- The instruction raises the first of its handler's errors, and does nothing else (R110, R112). -/
def RaisesFirst (i : Instr) (s : State) : Prop :=
  ∃ c, (handlerErrors i s).head? = some c ∧ exec i s = .next (s.raise c)

/-- The only register operand accessed names a register, or it is the first error. -/
theorem register_lt_or_raisesFirst {r : Byte} (hacc : accessedRegisters i s = [r])
    (hexec : 8 ≤ r.toNat → exec i s = .next (s.raise (.outOfBounds .register r.toNat))) :
    r.toNat < 8 ∨ RaisesFirst i s := by
  rcases Nat.lt_or_ge r.toNat 8 with h | h
  · exact .inl h
  · refine .inr ⟨_, ?_, hexec h⟩
    rw [handlerErrors, hacc, registerErrors_cons_of_ge [] h]
    rfl

/-- A handler that begins by reading a register operand of 8 or more raises its error. -/
theorem finish_readReg_of_ge {r : Byte} (f : Byte → Except ErrorCause Reply) (h : 8 ≤ r.toNat) :
    finish s (readReg s r >>= f) = .next (s.raise (.outOfBounds .register r.toNat)) := by
  rw [readReg_of_ge s h]
  rfl

/-- Both operands of an ALU instruction name registers, or the first that does not is the first error (R85, R110). -/
theorem operands_lt_or_raisesFirst {ra rb : Byte} (tag : AluTag) (hacc : accessedRegisters i s = [ra, rb])
    (hexec : exec i s = finish s (aluHandler tag ra rb s)) :
    (ra.toNat < 8 ∧ rb.toNat < 8) ∨ RaisesFirst i s := by
  rcases Nat.lt_or_ge ra.toNat 8 with ha | ha
  · rcases Nat.lt_or_ge rb.toNat 8 with hb | hb
    · exact .inl ⟨ha, hb⟩
    · refine .inr ⟨.outOfBounds .register rb.toNat, ?_, ?_⟩
      · rw [handlerErrors, hacc, registerErrors_cons_of_lt [rb] ha, registerErrors_cons_of_ge [] hb]
        rfl
      · simp only [hexec, aluHandler, alu, readReg_of_lt s ha, readReg_of_ge s hb]
        rfl
  · refine .inr ⟨.outOfBounds .register ra.toNat, ?_, ?_⟩
    · rw [handlerErrors, hacc, registerErrors_cons_of_ge [rb] ha]
      rfl
    · simp only [hexec, aluHandler, alu, readReg_of_ge s ha]
      rfl

/-- An accessed address outside memory is the first error when no register operand errs. -/
theorem raisesFirst_of_address {a : Int} (h : a < 0 ∨ 256 ≤ a)
    (hreg : registerErrors (accessedRegisters i s) = []) (hacc : accessedAddresses i s = [a])
    (hexec : exec i s = .next (s.raise (.outOfBounds .memory a))) : RaisesFirst i s :=
  ⟨_, by rw [handlerErrors, hreg, hacc, memoryErrors_singleton_outside h]; rfl, hexec⟩

/-- The push address lies in memory, or it is the first error when no register operand errs. -/
theorem push_inside_or_raisesFirst (hreg : registerErrors (accessedRegisters i s) = [])
    (hacc : accessedAddresses i s = [pushAddress s])
    (hexec : (s.sp = 0 ∨ 256 < s.sp) → exec i s = .next (s.raise (.outOfBounds .memory (pushAddress s)))) :
    (1 ≤ s.sp ∧ s.sp ≤ 256) ∨ RaisesFirst i s := by
  by_cases h : 1 ≤ s.sp ∧ s.sp ≤ 256
  · exact .inl h
  · exact .inr (raisesFirst_of_address (by simp only [pushAddress]; omega) hreg hacc (hexec (by omega)))

/-- The top of the stack lies in memory, or it is the first error when no register operand errs. -/
theorem top_inside_or_raisesFirst (hreg : registerErrors (accessedRegisters i s) = [])
    (hacc : accessedAddresses i s = [(s.sp : Int)])
    (hexec : topOfStack s = .error (.outOfBounds .memory s.sp) →
      exec i s = .next (s.raise (.outOfBounds .memory s.sp))) :
    s.sp < 256 ∨ RaisesFirst i s := by
  rcases Nat.lt_or_ge s.sp 256 with h | h
  · exact .inl h
  · exact .inr (raisesFirst_of_address (by omega) hreg hacc
      (hexec (by rw [topOfStack_eq, if_neg (Nat.not_lt.mpr h)])))

/-- Every instruction, in every state, completes or raises the first of its errors. -/
theorem completes_or_raisesFirst (i : Instr) (s : State) : (∃ t, Completes s i t) ∨ RaisesFirst i s := by
  cases i with
  | ldi r imm =>
    have hreg : r.toNat < 8 ∨ RaisesFirst (.ldi r imm) s :=
      register_lt_or_raisesFirst rfl fun h => by simp only [exec, execLdi, writeReg_of_ge s imm h]; rfl
    exact hreg.imp_left fun h => ⟨_, .ldi h⟩
  | prn r =>
    exact (register_lt_or_raisesFirst rfl (finish_readReg_of_ge _)).imp_left fun h => ⟨_, .prn h⟩
  | hlt => exact .inl ⟨_, .hlt⟩
  | add ra rb => exact (operands_lt_or_raisesFirst .add rfl rfl).imp_left fun ⟨ha, hb⟩ => ⟨_, .add ha hb⟩
  | mul ra rb => exact (operands_lt_or_raisesFirst .mul rfl rfl).imp_left fun ⟨ha, hb⟩ => ⟨_, .mul ha hb⟩
  | cmp ra rb => exact (operands_lt_or_raisesFirst .cmp rfl rfl).imp_left fun ⟨ha, hb⟩ => ⟨_, .cmp ha hb⟩
  | push r =>
    have hreg : r.toNat < 8 ∨ RaisesFirst (.push r) s := register_lt_or_raisesFirst rfl (finish_readReg_of_ge _)
    rcases hreg with h | h
    · have hsp : (1 ≤ s.sp ∧ s.sp ≤ 256) ∨ RaisesFirst (.push r) s := by
        refine push_inside_or_raisesFirst (registerErrors_cons_of_lt [] h) rfl fun hout => ?_
        simp only [exec, execPush, readReg_of_lt s h]
        simp only [bind, Except.bind, pushByte_error s _ hout]
        rfl
      exact hsp.imp_left fun ⟨hpos, hle⟩ => ⟨_, .push h hpos hle⟩
    · exact .inr h
  | pop r =>
    have hreg : r.toNat < 8 ∨ RaisesFirst (.pop r) s :=
      register_lt_or_raisesFirst rfl fun h => by simp only [exec, execPop, regIndex_of_ge h]; rfl
    rcases hreg with h | h
    · have hsp : s.sp < 256 ∨ RaisesFirst (.pop r) s := by
        refine top_inside_or_raisesFirst (registerErrors_cons_of_lt [] h) rfl fun htop => ?_
        simp only [exec, execPop, regIndex_of_lt h, htop]
        rfl
      exact hsp.imp_left fun hsp => ⟨_, .pop h hsp⟩
    · exact .inr h
  | call r =>
    have hreg : r.toNat < 8 ∨ RaisesFirst (.call r) s := register_lt_or_raisesFirst rfl (finish_readReg_of_ge _)
    rcases hreg with h | h
    · have hsp : (1 ≤ s.sp ∧ s.sp ≤ 256) ∨ RaisesFirst (.call r) s := by
        refine push_inside_or_raisesFirst (registerErrors_cons_of_lt [] h) rfl fun hout => ?_
        simp only [exec, execCall, readReg_of_lt s h, pushByte_error s _ hout]
        rfl
      exact hsp.imp_left fun ⟨hpos, hle⟩ => ⟨_, .call h hpos hle⟩
    · exact .inr h
  | ret =>
    refine (top_inside_or_raisesFirst rfl rfl fun htop => ?_).imp_left fun hsp => ⟨_, .ret hsp⟩
    simp only [exec, execRet, htop]
    rfl
  | jmp r => exact (register_lt_or_raisesFirst rfl (finish_readReg_of_ge _)).imp_left fun h => ⟨_, .jmp h⟩
  | jeq r =>
    cases he : s.flags.e with
    | false => exact .inl ⟨_, .jeqUntaken he⟩
    | true =>
      have hreg : r.toNat < 8 ∨ RaisesFirst (.jeq r) s :=
        register_lt_or_raisesFirst (if_pos he) fun h => by
          simp only [exec, execJeq, jumpIf, he]; exact finish_readReg_of_ge _ h
      exact hreg.imp_left fun h => ⟨_, .jeqTaken he h⟩
  | jne r =>
    cases he : s.flags.e with
    | true => exact .inl ⟨_, .jneUntaken he⟩
    | false =>
      have hreg : r.toNat < 8 ∨ RaisesFirst (.jne r) s :=
        register_lt_or_raisesFirst (if_neg (by simp [he])) fun h => by
          simp only [exec, execJne, jumpIf, he]; exact finish_readReg_of_ge _ h
      exact hreg.imp_left fun h => ⟨_, .jneTaken he h⟩

/-- Everything an executed instruction can do: raise the first of its errors, or complete. -/
theorem exec_cases (e : exec i s = .next t) :
    (∃ c, (handlerErrors i s).head? = some c ∧ t = s.raise c) ∨ Completes s i t := by
  rcases completes_or_raisesFirst i s with ⟨u, hu⟩ | ⟨c, hc, hraise⟩
  · rw [exec_of_completes hu, Host.Outcome.next.injEq] at e
    exact .inr (e ▸ hu)
  · rw [hraise, Host.Outcome.next.injEq] at e
    exact .inl ⟨c, hc, e.symm⟩

/-! ### What a step can do -/

/-- Everything a step can do, in the order of R75: a RUNNING machine faults at its fetch, faults at its decode,
or runs the instruction decoded from the window at `pc`. -/
theorem stepWith_cases (e : stepWith m s = .next t) :
    s.run = .running ∧
      ((254 ≤ s.pc ∧ t = s.raise (.outOfBounds .memory (if s.pc < 256 then 256 else s.pc))) ∨
       (s.pc ≤ 253 ∧ (∃ d, decodeWindow m (windowAt s) = .error d) ∧ t = s.raise .unrecognizedOpcode) ∨
       (s.pc ≤ 253 ∧ ∃ i, decodeWindow m (windowAt s) = .ok i ∧ exec i s = .next t)) := by
  cases hrun : s.run with
  | halted => simp only [stepWith, hrun, reduceCtorEq] at e
  | running =>
    refine ⟨rfl, ?_⟩
    rcases Nat.lt_or_ge s.pc 254 with hpc | hpc
    · right
      have hle : s.pc ≤ 253 := by omega
      cases hd : decodeWindow m (windowAt s) with
      | error d =>
        simp only [stepWith, hrun, fetch_ok s hle, hd, Host.Outcome.next.injEq] at e
        exact .inl ⟨hle, ⟨d, rfl⟩, e.symm⟩
      | ok i =>
        simp only [stepWith, hrun, fetch_ok s hle, hd] at e
        exact .inr ⟨hle, i, rfl, e⟩
    · simp only [stepWith, hrun, fetch_error s hpc, Host.Outcome.next.injEq] at e
      exact .inl ⟨hpc, e.symm⟩

/-- The same with the kinds of error put together: a step raises an error or completes an instruction. -/
theorem stepWith_raises_or_completes (e : stepWith m s = .next t) :
    (∃ c, t = s.raise c) ∨ ∃ i, decodeWindow m (windowAt s) = .ok i ∧ Completes s i t := by
  obtain ⟨-, ⟨-, ht⟩ | ⟨-, -, ht⟩ | ⟨-, i, hi, hexec⟩⟩ := stepWith_cases e
  · exact .inl ⟨_, ht⟩
  · exact .inl ⟨_, ht⟩
  · rcases exec_cases hexec with ⟨c, -, ht⟩ | hc
    · exact .inl ⟨c, ht⟩
    · exact .inr ⟨i, hi, hc⟩

/-! ### The run state, the error record and the output -/

/-- An instruction that completes leaves the error record alone (R36). -/
theorem Completes.err_eq (h : Completes s i t) : t.err = s.err := by
  cases h <;> rfl

/-- An instruction other than PRN that completes leaves the output alone (R37). -/
theorem Completes.out_eq (h : Completes s i t) (hi : ∀ r, i ≠ .prn r) : t.out = s.out := by
  cases h with
  | prn _ => exact absurd rfl (hi _)
  | _ => rfl

/-- An instruction that completes takes nothing away from the output (R37). -/
theorem Completes.out_prefix (h : Completes s i t) : s.out <+: t.out := by
  cases h with
  | prn _ => exact List.prefix_append _ _
  | _ => exact List.prefix_rfl

/-- Settles O11: a step that changes the error record has raised an error, since an instruction that completes
leaves the record alone; and a HALTED machine takes no step. -/
theorem haltedIsTerminal : Obligations.HaltedIsTerminal := by
  refine ⟨State.construct_run, fun s => ⟨_, exec_of_completes .hlt, s.halt_run⟩, ?_, ?_⟩
  · intro m s t hstep herr
    rcases stepWith_raises_or_completes hstep with ⟨c, rfl⟩ | ⟨i, -, hc⟩
    · exact s.raise_run c
    · exact absurd hc.err_eq herr
  · intro m s t hrun hstep
    have hrunning := (stepWith_cases hstep).1
    rw [hrun] at hrunning
    cases hrunning

/-- Settles O41, by the cases of `exec_cases`: an error leaves the output alone, and so does every instruction
that completes but PRN. -/
theorem onlyPrnAppendsOutput : Obligations.OnlyPrnAppendsOutput := by
  refine ⟨State.construct_out, ?_, ?_, ?_⟩
  · intro i s t hexec hi
    rcases exec_cases hexec with ⟨c, -, rfl⟩ | hc
    · exact s.raise_out c
    · exact hc.out_eq hi
  · intro r s t hexec
    refine ⟨fun h => ?_, fun h => ?_⟩
    · rw [exec_of_completes (.prn h), Host.Outcome.next.injEq] at hexec
      rw [← hexec, State.setPc_out, State.emit_out]
    · rcases exec_cases hexec with ⟨c, -, rfl⟩ | hc
      · exact s.raise_out c
      · cases hc with
        | prn hr => exact absurd h (Nat.not_le.mpr hr)
  · intro m s t hstep
    have hprefix : s.out <+: t.out := by
      rcases stepWith_raises_or_completes hstep with ⟨c, rfl⟩ | ⟨i, -, hc⟩
      · exact List.prefix_rfl
      · exact hc.out_prefix
    obtain ⟨l, hl⟩ := hprefix
    exact ⟨l, hl.symm⟩

end Sys2Proof.Machine

/-! PROOFS. Memory at construction, and what the load port writes there (20_memory.md R42, R43). -/

namespace Sys2Proof.Machine

/-- Every cell of a constructed machine reads 0 (R42). -/
theorem State.construct_mem_read (init : Fin 7 → Byte) (a : Nat) : (State.construct init).mem.read a = 0 := by
  rw [State.construct_mem, Memory.read_nil]

/-- Settles O44: construction lists no cell, and reset is a construction. -/
theorem memoryStartsZeroed : Obligations.MemoryStartsZeroed :=
  ⟨State.construct_mem_read, State.construct_mem_read Config.initRegs⟩

/-- A constructed machine's memory has the canonical form, so the laws of read and write hold of it (log 9). -/
theorem State.construct_mem_wf (init : Fin 7 → Byte) : (State.construct init).mem.wf = true := rfl

/-- A load of at most 256 bytes changes memory and nothing else (R43). -/
theorem State.load_frame (s : State) {b : List Byte} (h : b.length ≤ 256) :
    s.load b = { s with mem := (s.load b).mem } := by
  have hload : s.load b = s.setMem (s.mem.place 0 b) := if_pos h
  rw [hload]
  rfl

/-- Whatever its length, a load places the image in memory from address 0 (R43, R117). -/
theorem State.load_mem (s : State) (b : List Byte) : (s.load b).mem = s.mem.place 0 b := by
  unfold State.load
  split <;> rfl

/-- After a load of any length into a constructed machine, an address inside memory reads the image's byte
there, or 0 past the image (R43, R117). -/
theorem State.load_construct_mem_read (init : Fin 7 → Byte) (b : List Byte) {a : Nat} (ha : a < 256) :
    ((State.construct init).load b).mem.read a = b.getD a 0 := by
  rw [State.load_mem, Memory.read_place b _ 0 a (State.construct_mem_wf init) ha, State.construct_mem_read]
  rcases Nat.lt_or_ge a b.length with h | h
  · rw [if_pos ⟨Nat.zero_le a, by omega⟩, Nat.sub_zero]
  · rw [if_neg (by omega), List.getD_eq_default b 0 h]

/-- Settles O46: inside memory the loaded machine reads the image by `load_construct_mem_read`; an address outside
it is past an image of at most 256 bytes, so its cell is as constructed. -/
theorem loadWritesProgram : Obligations.LoadWritesProgram := by
  intro init b hb
  refine ⟨fun a => ?_, State.load_frame _ hb⟩
  rcases Nat.lt_or_ge a 256 with ha | ha
  · exact State.load_construct_mem_read init b ha
  · have hpast : b.length ≤ a := Nat.le_trans hb ha
    rw [State.load_mem, Memory.read_place_outside b _ 0 a (.inr (by omega)), State.construct_mem_read,
      List.getD_eq_default b 0 hpast]

end Sys2Proof.Machine

/-! PROOFS. The search of R63 inverts the opcode map (30_encoding.md). -/

namespace Sys2Proof

variable {m : OpcodeMap} {op : Byte} {n : Mnemonic}

/-- The search of R63 misses no mnemonic. -/
@[simp] theorem Mnemonic.mem_all (n : Mnemonic) : n ∈ Mnemonic.all := by
  cases n <;> decide

/-- What the search finds is mapped to the opcode, whether the map is injective or not (R63). -/
theorem opcode_eq_of_decodeOpcode (h : decodeOpcode m op = some n) : m n = op := by
  rw [decodeOpcode] at h
  simpa using List.find?_some h

/-- The search fails exactly when no mnemonic is mapped to the opcode, whether the map is injective or not (R63). -/
theorem decodeOpcode_eq_none_iff : decodeOpcode m op = none ↔ ∀ n, m n ≠ op := by
  rw [decodeOpcode, List.find?_eq_none]
  simp only [Mnemonic.mem_all, forall_const, decide_eq_true_eq, ne_eq]

/-- Injectivity (R61) is what makes the mnemonic found the only one mapped to the opcode. -/
theorem decodeOpcode_eq_some_iff (hm : Function.Injective m) : decodeOpcode m op = some n ↔ m n = op := by
  refine ⟨opcode_eq_of_decodeOpcode, fun hn => ?_⟩
  cases hfound : decodeOpcode m op with
  | none => exact absurd hn (decodeOpcode_eq_none_iff.mp hfound n)
  | some k =>
    have hk : m k = m n := (opcode_eq_of_decodeOpcode hfound).trans hn.symm
    rw [hm hk]

/-- Settles O3: a search through all the mnemonics finds one mapped to the opcode if there is one, and an
injective map has no other. -/
theorem decodeInvertsOpcodeMap : Obligations.DecodeInvertsOpcodeMap :=
  fun _ hm _ => ⟨fun _ => decodeOpcode_eq_some_iff hm, decodeOpcode_eq_none_iff⟩

end Sys2Proof

/-! PROOFS. The step whose opcode has no entry in the map (40_cycle.md R78). -/

namespace Sys2Proof.Machine

variable {m : OpcodeMap} {s : State}

/-- A window whose opcode no mnemonic is mapped to is no instruction; its operand bytes do not matter (R63, R65). -/
theorem decodeWindow_of_unmapped {w : Window} (h : ∀ n, m n ≠ w.op) :
    decodeWindow m w = .error (.unrecognizedOpcode w.op) := by
  simp only [decodeWindow, decodeOpcode_eq_none_iff.mpr h]

/-- A RUNNING machine whose window is in memory raises UnrecognizedOpcode when no mnemonic is mapped to its opcode. -/
theorem stepWith_of_unmapped (hrun : s.run = .running) (hpc : s.pc ≤ 253) (h : ∀ n, m n ≠ s.mem.read s.pc) :
    stepWith m s = .next (s.raise .unrecognizedOpcode) := by
  have hdecode : decodeWindow m (windowAt s) = .error (.unrecognizedOpcode (s.mem.read s.pc)) :=
    decodeWindow_of_unmapped h
  simp only [stepWith, hrun, fetch_ok s hpc, hdecode]

/-- Settles O10: the step raises UnrecognizedOpcode, and the record of a fetch inside memory names the opcode byte. -/
theorem unrecognizedOpcodeHalts : Obligations.UnrecognizedOpcodeHalts := by
  intro m s hrun hpc hop
  have hstep : stepWith m s = .next (s.raise .unrecognizedOpcode) := stepWith_of_unmapped hrun (by omega) hop
  have hopcode : s.fetchedOpcode = some (s.mem.read s.pc) := s.fetchedOpcode_of_lt (by omega)
  exact ⟨_, _, hstep, s.raise_run _, s.raise_err _, rfl, hopcode, rfl⟩

end Sys2Proof.Machine

/-! PROOFS. What the ALU answers, tag by tag, and what its handler returns (40_cycle.md R83 to R85). -/

namespace Sys2Proof.Machine

variable {s t : State} {tag : AluTag} {ia ib : Byte}

/-- A register read that answers was of a register there is (R19). -/
theorem lt_of_readReg_ok {r v : Byte} (h : readReg s r = .ok v) : r.toNat < 8 := by
  by_contra hr
  rw [readReg_of_ge s (Nat.not_lt.mp hr)] at h
  cases h

/-- An ALU that answers has read both its registers, whatever the tag (R85). -/
theorem operands_lt_of_alu_ok (h : alu tag ia ib s = .ok t) : ia.toNat < 8 ∧ ib.toNat < 8 := by
  rw [alu] at h
  cases ha : readReg s ia with
  | error c => rw [ha] at h; cases h
  | ok a =>
    cases hb : readReg s ib with
    | error c => rw [ha, hb] at h; cases h
    | ok b => exact ⟨lt_of_readReg_ok ha, lt_of_readReg_ok hb⟩

theorem alu_add_of_lt (s : State) (ha : ia.toNat < 8) (hb : ib.toNat < 8) :
    alu .add ia ib s = .ok (s.setReg ⟨ia.toNat, ha⟩ (s.regs[ia.toNat] + s.regs[ib.toNat])) := by
  rw [alu, readReg_of_lt s ha, readReg_of_lt s hb]
  exact writeReg_of_lt s _ ha

theorem alu_mul_of_lt (s : State) (ha : ia.toNat < 8) (hb : ib.toNat < 8) :
    alu .mul ia ib s = .ok (s.setReg ⟨ia.toNat, ha⟩ (s.regs[ia.toNat] * s.regs[ib.toNat])) := by
  rw [alu, readReg_of_lt s ha, readReg_of_lt s hb]
  exact writeReg_of_lt s _ ha

theorem alu_cmp_of_lt (s : State) (ha : ia.toNat < 8) (hb : ib.toNat < 8) :
    alu .cmp ia ib s = .ok (s.setFlags (compareFlags s.regs[ia.toNat] s.regs[ib.toNat])) := by
  rw [alu, readReg_of_lt s ha, readReg_of_lt s hb]
  rfl

/-- The handler hands on the state the ALU answers, with `(3, true)` (R83). -/
theorem aluHandler_of_alu_ok (h : alu tag ia ib s = .ok t) :
    aluHandler tag ia ib s = .ok { state := t, advance := 3, keepRunning := true } := by
  rw [aluHandler, h]
  rfl

/-- Settles O27: both operands name registers, so the tag's own equation says which part of the state is written. -/
theorem aluMutatesRegisterOrFlags : Obligations.AluMutatesRegisterOrFlags := by
  intro tag ia ib s t halu
  obtain ⟨ha, hb⟩ := operands_lt_of_alu_ok halu
  refine ⟨⟨ha, ?_⟩, aluHandler_of_alu_ok halu⟩
  cases tag with
  | add =>
    rw [alu_add_of_lt s ha hb, Except.ok.injEq] at halu
    exact ⟨fun _ => ⟨_, halu.symm⟩, nofun⟩
  | mul =>
    rw [alu_mul_of_lt s ha hb, Except.ok.injEq] at halu
    exact ⟨fun _ => ⟨_, halu.symm⟩, nofun⟩
  | cmp =>
    rw [alu_cmp_of_lt s ha hb, Except.ok.injEq] at halu
    exact ⟨fun hne => absurd rfl hne, fun _ => ⟨_, halu.symm⟩⟩

end Sys2Proof.Machine

/-! PROOFS. LDI and PRN: the register written or emitted, or the register error alone (41_data_movement.md R86, R87). -/

namespace Sys2Proof.Machine

/-- What `State.raise` leaves is a record of the cause, the halt, and nothing else (R112). -/
theorem raisesOnly_raise (s : State) (c : ErrorCause) : raisesOnly s c (.next (s.raise c)) :=
  ⟨s.errorRecord c, rfl, rfl⟩

/-- A handler that begins by writing a register operand of 8 or more raises its error. -/
theorem finish_writeReg_of_ge (s : State) {r : Byte} (v : Byte) (f : State → Except ErrorCause Reply)
    (h : 8 ≤ r.toNat) :
    finish s (writeReg s r v >>= f) = .next (s.raise (.outOfBounds .register r.toNat)) := by
  rw [writeReg_of_ge s v h]
  rfl

/-- Settles O21: with a register below 8 LDI completes; otherwise its handler fails at the write. -/
theorem ldiLoadsImmediate : Obligations.LdiLoadsImmediate := by
  refine fun r imm s => ⟨rfl, fun h => exec_of_completes (.ldi h), fun h => ?_⟩
  have hraise : exec (.ldi r imm) s = .next (s.raise (.outOfBounds .register r.toNat)) :=
    finish_writeReg_of_ge s imm _ h
  exact hraise ▸ raisesOnly_raise s _

/-- Construction gives R0 to R6 the values of INIT_REGS (R20, R121). -/
theorem State.construct_regs_of_lt (init : Fin 7 → Byte) {n : Nat} (h : n < 7) :
    (State.construct init).regs[n] = init ⟨n, h⟩ := by
  match n, h with
  | 0, _ | 1, _ | 2, _ | 3, _ | 4, _ | 5, _ | 6, _ => rfl

/-- Construction gives R7 the value SP_INIT (R9, R121). -/
theorem State.construct_regs_seven (init : Fin 7 → Byte) : (State.construct init).regs[7] = 0xF4 := rfl

/-- On a constructed machine, whose output is empty, PRN makes its register's byte the whole output (R37, R87). -/
theorem exec_prn_construct (init : Fin 7 → Byte) {r v : Byte} (h : r.toNat < 8)
    (hv : (State.construct init).regs[r.toNat] = v) :
    ∃ t, exec (.prn r) (State.construct init) = .next t ∧ t.out = [v] := by
  refine ⟨_, exec_of_completes (.prn h), ?_⟩
  rw [State.setPc_out, State.emit_out, State.construct_out, hv, List.nil_append]

/-- Settles O22: with a register below 8 PRN completes, otherwise its handler fails at the read; on a constructed
machine the register's byte is INIT_REGS's or SP_INIT. -/
theorem prnEmitsRegister : Obligations.PrnEmitsRegister := by
  refine ⟨fun r s => ⟨rfl, fun h => exec_of_completes (.prn h), fun h => ?_⟩, fun init r => ⟨fun h => ?_, ?_⟩⟩
  · have hraise : exec (.prn r) s = .next (s.raise (.outOfBounds .register r.toNat)) := finish_readReg_of_ge _ h
    exact hraise ▸ raisesOnly_raise s _
  · exact exec_prn_construct init (Nat.lt_succ_of_lt h) (State.construct_regs_of_lt init h)
  · rintro rfl
    exact exec_prn_construct init (by decide) (State.construct_regs_seven init)

end Sys2Proof.Machine

/-! PROOFS. Decoder and encoder are inverse to each other (30_encoding.md R57 to R64). -/

namespace Sys2Proof

variable {m : OpcodeMap} {w : Window} {i : Instr} {n : Mnemonic}

/-! ### An instruction is its mnemonic and its operand bytes -/

@[simp] theorem mnemonic_withOperands (n : Mnemonic) (a b : Byte) : (n.withOperands a b).mnemonic = n := by
  cases n <;> rfl

/-- Making an instruction takes the operand bytes its mnemonic counts, and no other (R58, R64). -/
theorem operands_withOperands (n : Mnemonic) (a b : Byte) :
    (n.withOperands a b).operands = [a, b].take n.operandCount := by
  cases n <;> rfl

theorem Mnemonic.operandCount_le (n : Mnemonic) : n.operandCount ≤ 2 := by
  cases n <;> decide

/-- An instruction is made again from any two bytes that begin with its own operand bytes. -/
theorem withOperands_of_operands {a b : Byte} {rest tail : List Byte} (h : i.operands ++ rest = a :: b :: tail) :
    i.mnemonic.withOperands a b = i := by
  cases i with
  | hlt | ret => rfl
  | prn r | push r | pop r | call r | jmp r | jeq r | jne r =>
    obtain ⟨rfl, -⟩ := List.cons.inj h
    rfl
  | ldi r imm | add r imm | mul r imm | cmp r imm =>
    obtain ⟨rfl, htail⟩ := List.cons.inj h
    obtain ⟨rfl, -⟩ := List.cons.inj htail
    rfl

/-- Only the operand bytes the mnemonic counts matter (R64). -/
theorem withOperands_congr {a b a' b' : Byte} (ha : 1 ≤ n.operandCount → a' = a) (hb : 2 ≤ n.operandCount → b' = b) :
    n.withOperands a' b' = n.withOperands a b := by
  cases n with
  | hlt | ret => rfl
  | prn | push | pop | call | jmp | jeq | jne =>
    obtain rfl := ha (by decide)
    rfl
  | ldi | add | mul | cmp =>
    obtain rfl := ha (by decide)
    obtain rfl := hb (by decide)
    rfl

/-! ### Decoding a window -/

theorem decodeWindow_of_decodeOpcode (h : decodeOpcode m w.op = some n) :
    decodeWindow m w = .ok (n.withOperands w.op1 w.op2) := by
  rw [decodeWindow, h]

/-- A window that decodes to an instruction has an opcode the map gives to a mnemonic (R63). -/
theorem exists_mnemonic_of_decodeWindow (h : decodeWindow m w = .ok i) :
    ∃ n, m n = w.op ∧ n.withOperands w.op1 w.op2 = i := by
  cases hn : decodeOpcode m w.op with
  | none =>
    rw [Machine.decodeWindow_of_unmapped (decodeOpcode_eq_none_iff.mp hn)] at h
    cases h
  | some n =>
    rw [decodeWindow_of_decodeOpcode hn, Except.ok.injEq] at h
    exact ⟨n, opcode_eq_of_decodeOpcode hn, h⟩

/-- Bytes that decode are at least the three of a window (R58). -/
theorem exists_window_of_decodeBytes {bytes : List Byte} (h : decodeBytes m bytes = .ok i) :
    ∃ op a b tail, bytes = op :: a :: b :: tail ∧ decodeWindow m ⟨op, a, b⟩ = .ok i := by
  match bytes, h with
  | op :: a :: b :: tail, h => exact ⟨op, a, b, tail, rfl, h⟩

/-! ### The round trips -/

/-- Settles O4: the window holds the mnemonic's opcode, which an injective map gives back, and begins with the
operand bytes, which make the instruction again. -/
theorem decodeAfterEncode : Obligations.DecodeAfterEncode := by
  intro m hm i rest hlen
  obtain ⟨a, b, tail, hbytes⟩ : ∃ a b tail, i.operands ++ rest = a :: b :: tail := by
    match hops : i.operands ++ rest with
    | a :: b :: tail => exact ⟨a, b, tail, rfl⟩
    | [] | [_] => simp [encodeWith, hops] at hlen
  have hop : decodeOpcode m (m i.mnemonic) = some i.mnemonic := (decodeOpcode_eq_some_iff hm).mpr rfl
  calc decodeBytes m (encodeWith m i ++ rest)
      = decodeWindow m ⟨m i.mnemonic, a, b⟩ := by rw [encodeWith, List.cons_append, hbytes, decodeBytes]
    _ = .ok (i.mnemonic.withOperands a b) := decodeWindow_of_decodeOpcode hop
    _ = .ok i := by rw [withOperands_of_operands hbytes]

/-- The bytes of an instruction made from a window are the first bytes of the window, as many as its length. -/
theorem encodeWith_withOperands (m : OpcodeMap) (n : Mnemonic) (a b : Byte) (tail : List Byte) :
    encodeWith m (n.withOperands a b) = (m n :: a :: b :: tail).take (n.withOperands a b).length := by
  have htake : (a :: b :: tail).take n.operandCount = [a, b].take n.operandCount :=
    List.take_append_of_le_length (l₁ := [a, b]) n.operandCount_le
  rw [encodeWith, Instr.length, mnemonic_withOperands, operands_withOperands, Nat.add_comm, List.take_succ_cons, htake]

/-- Settles O5: bytes that decode are a window and a tail, and the instruction is made from the window. -/
theorem encodeAfterDecode : Obligations.EncodeAfterDecode := by
  intro m bytes i h
  obtain ⟨op, a, b, tail, rfl, hw⟩ := exists_window_of_decodeBytes h
  obtain ⟨n, rfl, rfl⟩ := exists_mnemonic_of_decodeWindow hw
  exact ⟨encodeWith_withOperands m n a b tail, by simp⟩

/-- Settles O6: both windows have one mnemonic or none, and it takes only the operand bytes it counts. -/
theorem unusedOperandBytesAreIgnored : Obligations.UnusedOperandBytesAreIgnored := by
  intro m op a b a' b' h
  cases hn : decodeOpcode m op with
  | none =>
    have hunmapped : ∀ x y, decodeWindow m ⟨op, x, y⟩ = .error (.unrecognizedOpcode op) :=
      fun x y => Machine.decodeWindow_of_unmapped (w := ⟨op, x, y⟩) (decodeOpcode_eq_none_iff.mp hn)
    rw [hunmapped, hunmapped]
  | some n =>
    rw [decodeWindow_of_decodeOpcode hn, decodeWindow_of_decodeOpcode hn]
    obtain ⟨ha, hb⟩ := h n hn
    exact congrArg Except.ok (withOperands_congr ha hb)

/-! ### The default opcode map -/

theorem decodeOpcode_opcodeMap (n : Mnemonic) : decodeOpcode opcodeMap (opcodeMap n) = some n := by
  cases n <;> rfl

/-- The decoder undoes the default map, so the map gives no byte to two mnemonics (R61). -/
theorem opcodeMap_injective : Function.Injective opcodeMap := by
  intro a b h
  have hsome : some a = some b := by rw [← decodeOpcode_opcodeMap a, h, decodeOpcode_opcodeMap]
  exact Option.some.inj hsome

/-- Settles O2: the three opcodes of the source are read off, and injectivity is `opcodeMap_injective`. -/
theorem defaultOpcodeMapIsAdmissible : Obligations.DefaultOpcodeMapIsAdmissible :=
  ⟨rfl, rfl, rfl, opcodeMap_injective⟩

/-- Settles O1: each row's bytes are evaluated, and decode back by the round trip of O4. -/
theorem opcodeTableWords : Obligations.OpcodeTableWords := by
  intro p hp
  have henc : encode p.2 = p.1 := by
    revert p hp
    decide
  refine ⟨henc, henc ▸ decodeAfterEncode opcodeMap opcodeMap_injective p.2 _ ?_⟩
  simp [encodeWith]

end Sys2Proof

/-! PROOFS. Fatal errors and the step: which error is reported, and what a step may leave in the record
(40_cycle.md R74 to R82, 60_exceptions.md R105 to R116). -/

namespace Sys2Proof.Machine

variable {m : OpcodeMap} {s t : State} {i : Instr} {c : ErrorCause}

/-! ### The errors in a list of accesses -/

theorem mem_registerErrors {rs : List Byte} :
    c ∈ registerErrors rs ↔ ∃ r ∈ rs, 8 ≤ r.toNat ∧ c = .outOfBounds .register r.toNat := by
  simp only [registerErrors, namesRegister, nregs, List.mem_map, List.mem_filter, Bool.not_eq_true',
    decide_eq_false_iff_not, Nat.not_lt, and_assoc, eq_comm (a := c)]

theorem mem_memoryErrors {addrs : List Int} :
    c ∈ memoryErrors addrs ↔ ∃ a ∈ addrs, ¬(0 ≤ a ∧ a < 256) ∧ c = .outOfBounds .memory a := by
  simp only [memoryErrors, memSize, List.mem_map, List.mem_filter, decide_eq_true_eq, and_assoc, eq_comm (a := c),
    Nat.cast_ofNat]

theorem registerErrors_eq_nil_iff {rs : List Byte} : registerErrors rs = [] ↔ ∀ r ∈ rs, r.toNat < 8 := by
  simp [registerErrors, namesRegister]

theorem memoryErrors_eq_nil_iff {addrs : List Int} : memoryErrors addrs = [] ↔ ∀ a ∈ addrs, 0 ≤ a ∧ a < 256 := by
  simp only [memoryErrors, memSize, List.map_eq_nil_iff, List.filter_eq_nil_iff, decide_eq_true_eq, not_not,
    Nat.cast_ofNat]

theorem memoryErrors_cons_outside {a : Int} (as : List Int) (h : ¬(0 ≤ a ∧ a < 256)) :
    memoryErrors (a :: as) = .outOfBounds .memory a :: memoryErrors as := by
  have hkeep : decide (¬(0 ≤ a ∧ a < (memSize : Int))) = true := decide_eq_true h
  simp only [memoryErrors, List.filter_cons, hkeep, if_true, List.map_cons]

/-! ### The first error of a handler -/

/-- A handler meets no error exactly when every register and every address it accesses is in range (R107, R108). -/
theorem handlerErrors_eq_nil_iff :
    handlerErrors i s = [] ↔
      (∀ r ∈ accessedRegisters i s, r.toNat < 8) ∧ ∀ a ∈ accessedAddresses i s, 0 ≤ a ∧ a < 256 := by
  rw [handlerErrors, List.append_eq_nil_iff, registerErrors_eq_nil_iff, memoryErrors_eq_nil_iff]

/-- An instruction that completes has met no error. -/
theorem Completes.handlerErrors_eq_nil (h : Completes s i t) : handlerErrors i s = [] := by
  rw [handlerErrors_eq_nil_iff]
  cases h with
  | hlt => simp [accessedRegisters, accessedAddresses]
  | ldi h | prn h | jmp h => simpa [accessedRegisters, accessedAddresses] using h
  | add ha hb | mul ha hb | cmp ha hb => simpa [accessedRegisters, accessedAddresses] using ⟨ha, hb⟩
  | push h hpos hle | call h hpos hle =>
    simp only [accessedRegisters, accessedAddresses, pushAddress, List.forall_mem_singleton]
    omega
  | pop h hsp =>
    simp only [accessedRegisters, accessedAddresses, List.forall_mem_singleton]
    omega
  | ret hsp => simpa [accessedRegisters, accessedAddresses] using hsp
  | jeqTaken he h | jneTaken he h => simpa [accessedRegisters, accessedAddresses, he] using h
  | jeqUntaken he | jneUntaken he => simp [accessedRegisters, accessedAddresses, he]

/-- An instruction that meets no error completes. -/
theorem completes_of_handlerErrors_nil (e : exec i s = .next t) (h : handlerErrors i s = []) : Completes s i t := by
  obtain ⟨c, hc, -⟩ | hcompletes := exec_cases e
  · rw [h] at hc
    cases hc
  · exact hcompletes

/-- An instruction that meets an error raises the first. -/
theorem raises_of_handlerErrors_ne_nil (e : exec i s = .next t) (h : handlerErrors i s ≠ []) : ∃ c, t = s.raise c := by
  obtain ⟨c, -, ht⟩ | hcompletes := exec_cases e
  · exact ⟨c, ht⟩
  · exact absurd hcompletes.handlerErrors_eq_nil h

theorem fatalHalt_eq_raise (s : State) (c : ErrorCause) : fatalHalt s c = .next (s.raise c) := rfl

/-- Settles O14: `State.raise` is written out, and `fatalHalt` is its next state. -/
theorem fatalErrorEntry : Obligations.FatalErrorEntry :=
  fun s c => ⟨rfl, fatalHalt_eq_raise s c⟩

/-- The outcome is the fatal halt with the first error of a list, or, if the list is empty, a next state that
leaves the record alone (R110). -/
def ReportsFirst (s : State) (errors : List ErrorCause) (o : Host.Outcome State Fault Refusal) : Prop :=
  (∀ c later, errors = c :: later → o = fatalHalt s c) ∧ (errors = [] → ∃ t, o = .next t ∧ t.err = s.err)

theorem reportsFirst_of_head {errors : List ErrorCause} (h : errors.head? = some c) :
    ReportsFirst s errors (.next (s.raise c)) := by
  obtain ⟨later, rfl⟩ := List.head?_eq_some_iff.mp h
  refine ⟨fun c' later' hcons => ?_, nofun⟩
  obtain ⟨rfl, -⟩ := List.cons.inj hcons
  exact (fatalHalt_eq_raise s c).symm

theorem reportsFirst_exec (i : Instr) (s : State) : ReportsFirst s (handlerErrors i s) (exec i s) := by
  rcases completes_or_raisesFirst i s with ⟨t, ht⟩ | ⟨c, hc, hexec⟩
  · rw [ht.handlerErrors_eq_nil]
    exact ⟨nofun, fun _ => ⟨t, exec_of_completes ht, ht.err_eq⟩⟩
  · rw [hexec]
    exact reportsFirst_of_head hc

/-- Of the instructions that complete, only HLT writes the run state (R35, R81). -/
theorem Completes.run_eq (h : Completes s i t) : t.run = if i = .hlt then .halted else s.run := by
  cases h <;> rfl

/-- Every instruction answers a next state (R82). -/
theorem exec_next (i : Instr) (s : State) : ∃ t, exec i s = .next t := by
  rcases completes_or_raisesFirst i s with ⟨t, ht⟩ | ⟨c, -, hexec⟩
  · exact ⟨t, exec_of_completes ht⟩
  · exact ⟨_, hexec⟩

/-- Settles O16: an instruction completes or raises the first of its errors, and one that completes meets none. -/
theorem handlerReportsFirstError : Obligations.HandlerReportsFirstError := by
  intro i s
  refine ⟨(reportsFirst_exec i s).1, fun hnil => ?_⟩
  obtain ⟨t, ht⟩ := exec_next i s
  have hcompletes := completes_of_handlerErrors_nil ht hnil
  exact ⟨t, ht, hcompletes.err_eq, hcompletes.run_eq⟩

/-- Every register an instruction accesses is one of its register operands (R108). -/
theorem accessedRegisters_subset (i : Instr) (s : State) : accessedRegisters i s ⊆ i.registerOperands := by
  cases i with
  | jeq r | jne r => simp only [accessedRegisters, Instr.registerOperands]; split <;> simp
  | _ => exact List.Subset.refl _

/-- Settles O19: the error raised is one of the handler's, and a well-formed instruction accesses no register
operand of 8 or more, so it is one of the memory errors. -/
theorem wellFormedRaisesNoRegisterError : Obligations.WellFormedRaisesNoRegisterError := by
  intro i s t hwf hexec herr
  rcases exec_cases hexec with ⟨c, hc, rfl⟩ | hcompletes
  · rcases List.mem_append.mp (List.mem_of_mem_head? hc) with hreg | hmem
    · obtain ⟨r, hr, hge, -⟩ := mem_registerErrors.mp hreg
      have hnames : namesRegister r = true := List.all_eq_true.mp hwf r (accessedRegisters_subset i s hr)
      have hlt : r.toNat < 8 := of_decide_eq_true hnames
      omega
    · obtain ⟨a, -, -, ha⟩ := mem_memoryErrors.mp hmem
      exact ⟨a, _, s.raise_err c, ha⟩
  · exact absurd hcompletes.err_eq herr

/-! ### The step -/

theorem stepWith_of_halted (m : OpcodeMap) (h : s.run = .halted) : stepWith m s = .fault .halted := by
  simp only [stepWith, h]

/-- A RUNNING machine whose window is in memory and decodes runs the instruction (R75). -/
theorem stepWith_of_decode (hrun : s.run = .running) (hpc : s.pc ≤ 253)
    (hdecode : decodeWindow m (windowAt s) = .ok i) : stepWith m s = exec i s := by
  simp only [stepWith, hrun, fetch_ok s hpc, hdecode]

theorem stepWith_of_decode_error {d : DecodeError} (hrun : s.run = .running) (hpc : s.pc ≤ 253)
    (hdecode : decodeWindow m (windowAt s) = .error d) : stepWith m s = .next (s.raise .unrecognizedOpcode) := by
  simp only [stepWith, hrun, fetch_ok s hpc, hdecode]

theorem stepWith_of_window_outside (m : OpcodeMap) (hrun : s.run = .running) (hpc : 254 ≤ s.pc) :
    stepWith m s = .next (s.raise (.outOfBounds .memory (if s.pc < 256 then 256 else s.pc))) := by
  simp only [stepWith, hrun, fetch_error s hpc]

/-- Settles O7: the three bytes are the window the fetch latches. -/
theorem stepRunsDecodedInstruction : Obligations.StepRunsDecodedInstruction :=
  ⟨fun _ _ _ hrun hpc hdecode => stepWith_of_decode hrun (by omega) hdecode, fun _ => rfl⟩

/-- Settles O9: the fetch faults with the first address outside memory, and the record is the fatal error's. -/
theorem fetchOutsideMemoryHalts : Obligations.FetchOutsideMemoryHalts :=
  fun m _ hrun hpc => stepWith_of_window_outside m hrun (by omega)

theorem decodeTableWord_eq_some {nbits w : Nat} (h : decodeTableWord nbits w = some i) :
    decodeBytes opcodeMap (tableWordBytes nbits w) = .ok i := by
  cases hd : decodeBytes opcodeMap (tableWordBytes nbits w) with
  | ok j => simpa [decodeTableWord, hd] using h
  | error d => simp [decodeTableWord, hd] at h

/-- Three bytes placed at `pc` are the window there (log 11). -/
theorem windowAt_place (hpc : s.pc ≤ 253) (hwf : s.mem.wf = true) (op a b : Byte) :
    windowAt (s.setMem (s.mem.place s.pc [op, a, b])) = ⟨op, a, b⟩ := by
  have hread : ∀ k < 3, (s.mem.place s.pc [op, a, b]).read (s.pc + k) = [op, a, b].getD k 0 := by
    intro k hk
    rw [Memory.read_place _ _ _ _ hwf (show s.pc + k < 256 by omega), Nat.add_sub_cancel_left]
    exact if_pos ⟨by omega, by simpa using hk⟩
  rw [windowAt, State.setMem_mem, State.setMem_pc, hread 1 (by omega), hread 2 (by omega)]
  exact congrArg (Window.mk · a b) (hread 0 (by omega))

/-- Settles O8: the three bytes of the word read back at `pc` and are the window of the next step. -/
theorem placedInstructionIsRun : Obligations.PlacedInstructionIsRun := by
  intro s nbits w i hrun hpc hwf hword
  have hwindow : decodeWindow opcodeMap (windowAt (s.withFetchWord nbits w)) = .ok i := by
    rw [State.withFetchWord, tableWordBytes, windowAt_place (by omega) hwf]
    exact decodeTableWord_eq_some hword
  exact stepWith_of_decode (s := s.withFetchWord nbits w) hrun (show s.pc ≤ 253 by omega) hwindow

/-- A RUNNING machine steps, whether it faults at the fetch, at the decode, or runs an instruction (R82). -/
theorem stepWith_next (m : OpcodeMap) (hrun : s.run = .running) : ∃ t, stepWith m s = .next t := by
  rcases Nat.lt_or_ge 253 s.pc with hpc | hpc
  · exact ⟨_, stepWith_of_window_outside m hrun hpc⟩
  · cases hdecode : decodeWindow m (windowAt s) with
    | error d => exact ⟨_, stepWith_of_decode_error hrun hpc hdecode⟩
    | ok i =>
      rw [stepWith_of_decode hrun hpc hdecode]
      exact exec_next i s

/-- Settles O12: a HALTED machine answers the fault, and a RUNNING one a next state. -/
theorem runningAlwaysSteps : Obligations.RunningAlwaysSteps := by
  intro m s
  cases hrun : s.run with
  | halted => simp [stepWith_of_halted m hrun]
  | running =>
    obtain ⟨t, ht⟩ := stepWith_next m hrun
    simp [ht]

/-- The window's errors begin with the first of its addresses that is outside memory (R77). -/
theorem head_memoryErrors_window (hpc : 254 ≤ s.pc) :
    (memoryErrors [(s.pc : Int), (s.pc : Int) + 1, (s.pc : Int) + 2]).head? =
      some (.outOfBounds .memory (if s.pc < 256 then 256 else s.pc)) := by
  rcases Nat.lt_or_ge s.pc 256 with hlt | hge
  · rw [if_pos hlt]
    rcases (by omega : s.pc = 254 ∨ s.pc = 255) with he | he <;> rw [he] <;> rfl
  · rw [if_neg (Nat.not_lt.mpr hge), memoryErrors_cons_outside _ (by omega)]
    rfl

theorem memoryErrors_window_inside (hpc : s.pc ≤ 253) :
    memoryErrors [(s.pc : Int), (s.pc : Int) + 1, (s.pc : Int) + 2] = [] := by
  rw [memoryErrors_eq_nil_iff]
  intro a ha
  simp only [List.mem_cons, List.not_mem_nil, or_false] at ha
  omega

theorem reportsFirst_stepWith (m : OpcodeMap) (hrun : s.run = .running) :
    ReportsFirst s (stepErrors m s) (stepWith m s) := by
  rcases Nat.lt_or_ge 253 s.pc with hpc | hpc
  · rw [stepWith_of_window_outside m hrun hpc]
    refine reportsFirst_of_head ?_
    rw [stepErrors, List.head?_append, head_memoryErrors_window hpc, Option.some_or]
  · rw [stepErrors, memoryErrors_window_inside hpc, List.nil_append]
    cases hdecode : decodeWindow m (windowAt s) with
    | error d =>
      rw [stepWith_of_decode_error hrun hpc hdecode]
      exact reportsFirst_of_head rfl
    | ok i =>
      rw [stepWith_of_decode hrun hpc hdecode]
      exact reportsFirst_exec i s

/-- Settles O15: the errors come in the order the step checks them, fetch, decode, handler. -/
theorem firstErrorIsReported : Obligations.FirstErrorIsReported :=
  fun m _ hrun => reportsFirst_stepWith m hrun

/-- Settles O17: an instruction that completes leaves the record alone, so the step has raised an error. -/
theorem faultingStepCommitsNothing : Obligations.FaultingStepCommitsNothing := by
  intro m s t hstep herr
  rcases stepWith_raises_or_completes hstep with ⟨c, rfl⟩ | ⟨i, -, hcompletes⟩
  · exact ⟨rfl, s.errorRecord c, s.raise_err c, rfl, rfl⟩
  · exact absurd hcompletes.err_eq herr

/-- A step never clears the error record (R36). -/
theorem err_ne_none_of_stepWith (hstep : stepWith m s = .next t) (h : s.err ≠ none) : t.err ≠ none := by
  rcases stepWith_raises_or_completes hstep with ⟨c, rfl⟩ | ⟨i, -, hcompletes⟩
  · simp
  · rwa [hcompletes.err_eq]

/-- A step that halts a machine with no error leaves none exactly when it ran HLT (R75, R81, R88). -/
theorem err_eq_none_iff_ran_hlt (hstep : stepWith m s = .next t) (herr : s.err = none) (hhalt : t.run = .halted) :
    t.err = none ↔ s.pc ≤ 253 ∧ decodeWindow m (windowAt s) = .ok .hlt := by
  obtain ⟨hrun, ⟨hpc, rfl⟩ | ⟨-, ⟨d, hd⟩, rfl⟩ | ⟨hpc, i, hi, hexec⟩⟩ := stepWith_cases hstep
  · simp only [State.raise_err, reduceCtorEq, false_iff]
    omega
  · simp [hd]
  · rw [hi]
    rcases exec_cases hexec with ⟨c, hc, rfl⟩ | hcompletes
    · have hne : i ≠ .hlt := by
        rintro rfl
        cases hc
      simp [hne]
    · have hhlt : i = .hlt := by
        by_contra hne
        rw [hcompletes.run_eq, if_neg hne, hrun] at hhalt
        cases hhalt
      simp [hcompletes.err_eq, herr, hpc, hhlt]

/-- Settles O18: a step starts in RUNNING, where the invariant allows no record; the other two clauses are
`err_ne_none_of_stepWith` and `err_eq_none_iff_ran_hlt`. -/
theorem errorRecordIsSetOnce : Obligations.ErrorRecordIsSetOnce := by
  refine ⟨State.construct_err, fun m s t hstep => ⟨fun r hr => ?_, fun hinv => ?_, fun herr hhalt => ?_⟩⟩
  · exact err_ne_none_of_stepWith hstep (by simp [hr])
  · by_contra herr
    have hrun := (stepWith_cases hstep).1
    rw [hinv.errHalted herr] at hrun
    cases hrun
  · rw [err_eq_none_iff_ran_hlt hstep herr hhalt]
    exact and_congr_left fun _ => by omega

/-! ### The codes -/

theorem State.errorCode_of_none (h : s.err = none) : s.errorCode = 0 := by
  rw [State.errorCode, h]

theorem State.errorCode_of_some {r : ErrorRecord} (h : s.err = some r) : s.errorCode = r.cause.kind.code := by
  rw [State.errorCode, h]

theorem ErrorKind.code_ne_zero (k : ErrorKind) : k.code ≠ 0 := by
  cases k <;> decide

/-- Settles O20: the code of a record is its kind's, which is never 0. -/
theorem statusCodes : Obligations.StatusCodes := by
  refine ⟨rfl, rfl, rfl, fun s h => ?_, fun s r h => ?_⟩
  · rw [State.errorCode_of_none h]
    exact ⟨rfl, rfl⟩
  · rw [State.errorCode_of_some h]
    exact ⟨rfl, if_neg (ErrorKind.code_ne_zero _)⟩

end Sys2Proof.Machine

/-! PROOFS. The invariant: it holds at construction, and the load port and every step keep it (10_state.md R23,
R27, R31, R33, R36, 20_memory.md R41, 60_exceptions.md R105, R117). -/

namespace Sys2Proof.Machine

variable {m : OpcodeMap} {s t : State} {i : Instr} {c : ErrorCause}

/-! ### Construction and the load port -/

theorem State.construct_inv (init : Fin 7 → Byte) : (State.construct init).Inv where
  memory := State.construct_mem_wf init
  pcRange := by simp
  spRange := by simp
  flags := rfl
  errHalted := fun h => absurd rfl h
  errLegal := nofun

/-- Settles O48: reset is a construction. -/
theorem invariantHoldsAtReset : Obligations.InvariantHoldsAtReset :=
  ⟨State.construct_inv, State.construct_inv Config.initRegs⟩

/-- A load of at most 256 bytes replaces memory and nothing else (R43). -/
theorem State.load_of_fits (s : State) {b : List Byte} (h : b.length ≤ 256) :
    s.load b = s.setMem (s.mem.place 0 b) := if_pos h

/-- A longer load halts with a record as well (R117, D28). -/
theorem State.load_of_overlong (s : State) {b : List Byte} (h : 256 < b.length) :
    s.load b = { s.setMem (s.mem.place 0 b) with
      run := .halted
      err := some { cause := .outOfBounds .memory 256, pc := s.pc, op := none } } := if_neg (Nat.not_le.mpr h)

/-- Settles O47: the machine loaded is a constructed one, whose `pc` is 0, and a HALTED machine takes no step. -/
theorem overlongLoadHalts : Obligations.OverlongLoadHalts := by
  intro init b hb
  have hload := (State.construct init).load_of_overlong hb
  refine ⟨by rw [hload]; rfl, fun a ha => State.load_construct_mem_read init b ha, fun m => ?_⟩
  exact stepWith_of_halted m (by rw [hload])

theorem State.Inv.setMem (hs : s.Inv) {mem : Memory} (hmem : mem.wf = true) : (s.setMem mem).Inv :=
  { hs with memory := hmem }

/-- A halt with a legal record keeps the invariant. -/
theorem State.Inv.halt_with_record (hs : s.Inv) {r : ErrorRecord} (hr : r.legal) :
    State.Inv { s with run := .halted, err := some r } :=
  { hs with
    errHalted := fun _ => rfl
    errLegal := fun _ h => Option.some.inj h ▸ hr }

/-- Settles O49: placing bytes keeps memory canonical, and the record of an overlong load names an address
outside memory. -/
theorem invariantKeptByLoad : Obligations.InvariantKeptByLoad := by
  intro s b hs
  have hplaced : (s.setMem (s.mem.place 0 b)).Inv := hs.setMem (Memory.wf_place b s.mem 0 hs.memory)
  rcases Nat.lt_or_ge 256 b.length with hlong | hfits
  · rw [s.load_of_overlong hlong]
    exact hplaced.halt_with_record (by simp [ErrorRecord.legal])
  · rw [s.load_of_fits hfits]
    exact hplaced

/-! ### The records a step can leave -/

theorem State.fetchedOpcode_ne_none (h : s.pc < 256) : s.fetchedOpcode ≠ none := by
  simp [s.fetchedOpcode_of_lt h]

/-- An error of a handler that runs inside memory leaves a legal record (R105 to R108). -/
theorem errorRecord_legal_of_mem_handlerErrors (hpc : s.pc < 256) (hc : c ∈ handlerErrors i s) :
    (s.errorRecord c).legal := by
  rcases List.mem_append.mp hc with hreg | hmem
  · obtain ⟨r, -, hge, rfl⟩ := mem_registerErrors.mp hreg
    exact ⟨by omega, by omega, State.fetchedOpcode_ne_none hpc⟩
  · obtain ⟨a, -, ha, rfl⟩ := mem_memoryErrors.mp hmem
    exact ha

/-- The address a fetch error names is outside memory, so its record is legal with the opcode unknown too (R105). -/
theorem errorRecord_legal_of_fetch (s : State) :
    (s.errorRecord (.outOfBounds .memory (if s.pc < 256 then 256 else s.pc))).legal := by
  have houtside : ¬(0 ≤ (if s.pc < 256 then 256 else (s.pc : Int)) ∧
      (if s.pc < 256 then 256 else (s.pc : Int)) < 256) := by
    split <;> omega
  exact houtside

/-! ### What an instruction that completes keeps -/

theorem Completes.mem_wf (h : Completes s i t) (hm : s.mem.wf = true) : t.mem.wf = true := by
  cases h with
  | push _ hpos hle | call _ hpos hle => exact Memory.wf_write s.mem _ hm (show s.sp - 1 < 256 by omega)
  | _ => exact hm

/-- From an address a whole window fits at, `pc` stays in [0, 256]: the longest advance is 3, and a target is a
byte (R23, R80). -/
theorem Completes.pc_le (h : Completes s i t) (hpc : s.pc ≤ 253) : t.pc ≤ 256 := by
  cases h with
  | hlt => exact Nat.le_trans hpc (by decide)
  | call | ret | jmp | jeqTaken | jneTaken => exact Nat.le_of_lt (BitVec.isLt _)
  | _ =>
    rw [State.setPc_pc]
    omega

theorem Completes.sp_le (h : Completes s i t) (hsp : s.sp ≤ 256) : t.sp ≤ 256 := by
  cases h with
  | push _ _ hle | call _ _ hle => exact Nat.le_trans (Nat.sub_le s.sp 1) hle
  | pop _ hlt => exact hlt
  | _ => exact hsp

theorem Flags.legal_of_exactlyOne {f : Flags} (h : f.exactlyOne = true) : f.legal = true := by
  simp only [Flags.exactlyOne, beq_iff_eq] at h
  simp [Flags.legal, h]

/-- Unsigned comparison sets exactly one flag (R31, R93). -/
theorem exactlyOne_compareFlags (a b : Byte) : (compareFlags a b).exactlyOne = true := by
  rcases Nat.lt_trichotomy a.toNat b.toNat with h | h | h
  · simp [compareFlags, Flags.exactlyOne, h, h.ne, h.not_gt]
  · simp [compareFlags, Flags.exactlyOne, h]
  · simp [compareFlags, Flags.exactlyOne, h, h.ne', h.not_gt]

/-- An instruction other than CMP that completes leaves the flags alone (R31). -/
theorem Completes.flags_eq (h : Completes s i t) (hi : ∀ ra rb, i ≠ .cmp ra rb) : t.flags = s.flags := by
  cases h with
  | cmp _ _ => exact absurd rfl (hi _ _)
  | _ => rfl

/-- A CMP that completes leaves exactly one flag set (R31). -/
theorem Completes.exactlyOne_flags {ra rb : Byte} (h : Completes s (.cmp ra rb) t) : t.flags.exactlyOne = true := by
  cases h with
  | cmp ha hb => exact exactlyOne_compareFlags _ _

theorem Completes.flags_legal (h : Completes s i t) (hf : s.flags.legal = true) : t.flags.legal = true := by
  by_cases hi : ∃ ra rb, i = .cmp ra rb
  · obtain ⟨ra, rb, rfl⟩ := hi
    exact Flags.legal_of_exactlyOne h.exactlyOne_flags
  · rw [h.flags_eq fun ra rb he => hi ⟨ra, rb, he⟩]
    exact hf

/-! ### Steps and runs -/

/-- An instruction run by a step keeps the invariant, with the conditions the step has checked before it. -/
theorem State.Inv.exec (hs : s.Inv) (hrun : s.run = .running) (hpc : s.pc ≤ 253) (h : exec i s = .next t) : t.Inv := by
  rcases exec_cases h with ⟨c, hc, rfl⟩ | hcompletes
  · exact hs.halt_with_record (errorRecord_legal_of_mem_handlerErrors (by omega) (List.mem_of_mem_head? hc))
  · have herr : t.err = s.err := hcompletes.err_eq
    exact
      { memory := hcompletes.mem_wf hs.memory
        pcRange := hcompletes.pc_le hpc
        spRange := hcompletes.sp_le hs.spRange
        flags := hcompletes.flags_legal hs.flags
        errHalted := fun hne => by
          have hhalted := hs.errHalted (herr ▸ hne)
          rw [hrun] at hhalted
          cases hhalted
        errLegal := fun r hr => hs.errLegal r (herr ▸ hr) }

/-- Settles O50, by the cases of `stepWith_cases`: each error leaves a legal record, and an instruction run keeps
each clause. -/
theorem invariantKeptByStep : Obligations.InvariantKeptByStep := by
  intro m s t hs hstep
  obtain ⟨hrun, ⟨-, rfl⟩ | ⟨hpc, -, rfl⟩ | ⟨hpc, i, -, hexec⟩⟩ := stepWith_cases hstep
  · exact hs.halt_with_record (errorRecord_legal_of_fetch s)
  · exact hs.halt_with_record (State.fetchedOpcode_ne_none (by omega))
  · exact hs.exec hrun hpc hexec

/-- A run of one step and more is the step, then the rest of the run. -/
theorem run_succ_of_step (h : step s = .next t) (k : Nat) :
    Host.Core.run Sys2Proof.core (k + 1) s = Host.Core.run Sys2Proof.core k t := by
  have hcore : Sys2Proof.core.step s = .next t := h
  simp only [Host.Core.run, hcore]

/-- A run that takes a step and answers a state has taken it to a state. -/
theorem exists_step_of_run_succ {k : Nat} (h : Host.Core.run Sys2Proof.core (k + 1) s = .next t) :
    ∃ u, step s = .next u ∧ Host.Core.run Sys2Proof.core k u = .next t := by
  cases hstep : step s with
  | next u => exact ⟨u, rfl, run_succ_of_step hstep k ▸ h⟩
  | fault f =>
    have hcore : Sys2Proof.core.step s = .fault f := hstep
    simp only [Host.Core.run, hcore, reduceCtorEq] at h
  | refused r =>
    have hcore : Sys2Proof.core.step s = .refused r := hstep
    simp only [Host.Core.run, hcore, reduceCtorEq] at h

/-- What every step keeps, every run keeps. -/
theorem run_invariant {p : State → Prop} (hkeep : ∀ s t, p s → step s = .next t → p t) (k : Nat) (hs : p s)
    (h : Host.Core.run Sys2Proof.core k s = .next t) : p t := by
  induction k generalizing s with
  | zero =>
    cases h
    exact hs
  | succ k ih =>
    obtain ⟨u, hstep, hrest⟩ := exists_step_of_run_succ h
    exact ih (hkeep s u hs hstep) hrest

/-- Settles O51: the invariant holds at construction, the load keeps it, and so does every step of the run. -/
theorem reachableStatesHaveInvariant : Obligations.ReachableStatesHaveInvariant :=
  fun init b k _ hrun =>
    run_invariant (invariantKeptByStep opcodeMap) k (invariantKeptByLoad _ b (State.construct_inv init)) hrun

end Sys2Proof.Machine

/-! PROOFS. Instruction by instruction: what it does with operands in range, and which error it raises otherwise
(41_data_movement.md to 44_control.md). -/

namespace Sys2Proof.Machine

variable {s t : State} {i : Instr}

/-! ### The errors of one instruction -/

/-- The first register operand accessed errs when it is 8 or more (R108, R110). -/
theorem exec_of_register_ge {r : Byte} {rs : List Byte} (hacc : accessedRegisters i s = r :: rs) (h : 8 ≤ r.toNat) :
    exec i s = fatalHalt s (.outOfBounds .register r.toNat) := by
  refine (reportsFirst_exec i s).1 _ (registerErrors rs ++ memoryErrors (accessedAddresses i s)) ?_
  rw [handlerErrors, hacc, registerErrors_cons_of_ge rs h, List.cons_append]

/-- An address outside memory errs when the register operands are in range (R107, R110). -/
theorem exec_of_address_outside {a : Int} (hreg : ∀ r ∈ accessedRegisters i s, r.toNat < 8)
    (hacc : accessedAddresses i s = [a]) (h : a < 0 ∨ 256 ≤ a) :
    exec i s = fatalHalt s (.outOfBounds .memory a) := by
  refine (reportsFirst_exec i s).1 _ [] ?_
  rw [handlerErrors, registerErrors_eq_nil_iff.mpr hreg, hacc, memoryErrors_singleton_outside h, List.nil_append]

/-! ### HLT and the ALU -/

/-- Settles O23: HLT meets no error and completes. -/
theorem hltHaltsAtItsAddress : Obligations.HltHaltsAtItsAddress :=
  ⟨rfl, fun _ => exec_of_completes .hlt⟩

/-- Byte addition and multiplication are the integers' modulo 256 (R90). -/
theorem byte_add_eq_mod (a b : Byte) : a + b = BitVec.ofNat 8 ((a.toNat + b.toNat) % 256) := by
  apply BitVec.eq_of_toNat_eq
  simp

theorem byte_mul_eq_mod (a b : Byte) : a * b = BitVec.ofNat 8 ((a.toNat * b.toNat) % 256) := by
  apply BitVec.eq_of_toNat_eq
  simp

/-- Settles O24: ADD and MUL complete with the byte sum and product. -/
theorem addAndMulWrapSilently : Obligations.AddAndMulWrapSilently := by
  intro ra rb s ha hb
  rw [← byte_add_eq_mod, ← byte_mul_eq_mod]
  exact ⟨exec_of_completes (.add ha hb), exec_of_completes (.mul ha hb)⟩

/-- Settles O25: CMP completes with the flags of `compareFlags`. -/
theorem cmpSetsExactlyOneFlag : Obligations.CmpSetsExactlyOneFlag :=
  fun _ _ _ ha hb => ⟨_, exec_of_completes (.cmp ha hb), decide_eq_true_iff, decide_eq_true_iff, decide_eq_true_iff,
    exactlyOne_compareFlags _ _⟩

/-- Settles O26: the three access `op1`, then `op2`, and nothing else. -/
theorem aluChecksFirstOperandFirst : Obligations.AluChecksFirstOperandFirst := by
  intro ra rb s i hi
  have hreg : accessedRegisters i s = [ra, rb] := by rcases hi with rfl | rfl | rfl <;> rfl
  refine ⟨fun ha => exec_of_register_ge hreg ha, fun ha hb => ?_⟩
  refine (reportsFirst_exec i s).1 _ (memoryErrors (accessedAddresses i s)) ?_
  rw [handlerErrors, hreg, registerErrors_cons_of_lt [rb] ha, registerErrors_cons_of_ge [] hb]
  rfl

/-! ### The stack -/

/-- Settles O28: PUSH accesses its register, then the push address. -/
theorem pushStoresBelowStackPointer : Obligations.PushStoresBelowStackPointer := by
  intro r s
  refine ⟨fun h hpos hle => ⟨exec_of_completes (.push h hpos hle), Memory.read_write_self s.mem _ _⟩,
    exec_of_register_ge rfl, fun h hsp => ?_⟩
  exact exec_of_address_outside (List.forall_mem_singleton.mpr h) rfl (by omega)

/-- Settles O29: POP accesses its register, then the top of the stack. -/
theorem popLoadsTopOfStack : Obligations.PopLoadsTopOfStack := by
  intro r s
  refine ⟨fun h hsp => exec_of_completes (.pop h hsp), exec_of_register_ge rfl, fun h hsp => ?_⟩
  exact exec_of_address_outside (List.forall_mem_singleton.mpr h) rfl (by omega)

/-- Settles O30: POP finds the byte PUSH stored, which is the register's own. -/
theorem pushThenPopRestores : Obligations.PushThenPopRestores := by
  intro r s h hpos hle hwf
  refine ⟨_, _, exec_of_completes (.push h hpos hle), exec_of_completes (.pop h (show s.sp - 1 < 256 by omega)), ?_⟩
  have hback : (s.mem.write (s.sp - 1) s.regs[r.toNat]).read (s.sp - 1) = s.regs[r.toNat] :=
    Memory.read_write_self s.mem _ _ hwf
  refine ⟨?_, Nat.sub_add_cancel hpos, rfl, rfl, fun a ha => Memory.read_write_other s.mem _ (by omega)⟩
  simp [hback]

/-! ### Control transfer -/

/-- The return address does not wrap where a step runs CALL (R98; log 7). -/
theorem returnAddress_toNat (h : s.pc ≤ 253) : (returnAddress s).toNat = s.pc + 2 := by
  rw [returnAddress, BitVec.toNat_ofNat]
  omega

/-- Settles O31: CALL accesses its register, then the push address. -/
theorem callPushesReturnAddress : Obligations.CallPushesReturnAddress := by
  intro r s
  refine ⟨fun h hpos hle hpc => ?_, exec_of_register_ge rfl, fun h hsp => ?_⟩
  · exact ⟨returnAddress s, returnAddress_toNat hpc, exec_of_completes (.call h hpos hle),
      Memory.read_write_self s.mem _ _⟩
  · exact exec_of_address_outside (List.forall_mem_singleton.mpr h) rfl (by omega)

/-- Settles O32: RET accesses the top of the stack and no register. -/
theorem retReadsWithoutPopping : Obligations.RetReadsWithoutPopping :=
  fun _ => ⟨fun h => exec_of_completes (.ret h), fun h => exec_of_address_outside nofun rfl (by omega)⟩

/-- Settles O33: JMP accesses its register alone. -/
theorem jmpSetsProgramCounter : Obligations.JmpSetsProgramCounter :=
  fun _ _ => ⟨fun h => exec_of_completes (.jmp h), exec_of_register_ge rfl⟩

/-- Settles O34: a conditional jump accesses its register exactly when it is taken. -/
theorem conditionalJumpsReadEqual : Obligations.ConditionalJumpsReadEqual := by
  refine fun r s => ⟨fun he => ⟨?_, ?_, ?_⟩, fun he => ⟨?_, ?_, ?_⟩⟩
  · exact fun h => exec_of_completes (.jeqTaken he h)
  · exact exec_of_register_ge (if_pos he)
  · exact exec_of_completes (.jneUntaken he)
  · exact exec_of_completes (.jeqUntaken he)
  · exact fun h => exec_of_completes (.jneTaken he h)
  · exact exec_of_register_ge (if_neg (by simp [he]))

/-- Settles O35: RET reads back the return address CALL stored. -/
theorem callThenRetResumes : Obligations.CallThenRetResumes := by
  intro r s h hpos hle hpc hwf
  refine ⟨_, exec_of_completes (.call h hpos hle), fun u hsp hmem => ?_⟩
  have hsp' : u.sp = s.sp - 1 := hsp
  have htop : u.mem.read u.sp = returnAddress s := by
    rw [hmem, hsp']
    exact Memory.read_write_self s.mem _ _ hwf
  refine ⟨_, exec_of_completes (.ret (by omega)), ?_, ?_⟩
  · rw [State.setPc_pc, htop, returnAddress_toNat hpc]
  · rw [State.setPc_sp, hsp', Nat.sub_add_cancel hpos]

/-- CMP sets Equal exactly on equal registers. -/
theorem compareFlags_e_iff {a b : Byte} : (compareFlags a b).e = true ↔ a = b := by
  rw [compareFlags, decide_eq_true_iff, BitVec.toNat_inj]

/-- Settles O36: the jump reads the Equal flag CMP has set, and CMP leaves the registers. -/
theorem branchAfterCompare : Obligations.BranchAfterCompare := by
  intro ra rb r s ha hb h
  refine ⟨_, exec_of_completes (.cmp ha hb), ?_⟩
  by_cases heq : s.regs[ra.toNat] = s.regs[rb.toNat]
  · have he : (compareFlags s.regs[ra.toNat] s.regs[rb.toNat]).e = true := compareFlags_e_iff.mpr heq
    rw [if_pos heq, if_pos heq]
    exact ⟨exec_of_completes (.jeqTaken he h), exec_of_completes (.jneUntaken he)⟩
  · have he : (compareFlags s.regs[ra.toNat] s.regs[rb.toNat]).e = false :=
      Bool.eq_false_iff.mpr (heq ∘ compareFlags_e_iff.mp)
    rw [if_neg heq, if_neg heq]
    exact ⟨exec_of_completes (.jeqUntaken he), exec_of_completes (.jneTaken he h)⟩

/-- Settles O13, by induction on the number of steps: each one sets `pc` to the register, which holds `pc`. -/
theorem selfJumpNeverHalts : Obligations.SelfJumpNeverHalts := by
  intro s r h hrun hpc hdecode htarget k
  have hstep : step s = .next s := by
    calc step s = exec (.jmp r) s := stepWith_of_decode hrun (by omega) hdecode
      _ = .next (s.setPc s.regs[r.toNat].toNat) := exec_of_completes (.jmp h)
      _ = .next s := by rw [htarget]; rfl
  induction k with
  | zero => rfl
  | succ k ih => rw [run_succ_of_step hstep, ih]

/-- Settles O45: R7 and `sp` are SP_INIT, R0 to R6 are INIT_REGS, and the rest is read off. -/
theorem constructionSetsState : Obligations.ConstructionSetsState := by
  refine ⟨fun init => ⟨State.construct_regs_seven init, fun k j hjk => ?_, rfl, rfl, rfl, rfl, rfl, rfl⟩, rfl⟩
  have hlt : j.val < 7 := hjk ▸ k.isLt
  exact (State.construct_regs_of_lt init hlt).trans (congrArg init (Fin.ext hjk))

end Sys2Proof.Machine

/-! PROOFS. What every instruction leaves unchanged, and what it does not depend on (10_state.md R19, R21, R25,
R28 to R31, 20_memory.md R44). -/

namespace Sys2Proof.Machine

variable {m : OpcodeMap} {s t : State} {i : Instr}

/-- Everything an executed instruction can do, by whether its handler meets an error: raise one and leave every
field but `run` and `err`, or complete. -/
theorem exec_split (e : exec i s = .next t) :
    (handlerErrors i s ≠ [] ∧ ∃ c, t = s.raise c) ∨ (handlerErrors i s = [] ∧ Completes s i t) := by
  by_cases h : handlerErrors i s = []
  · exact .inr ⟨h, completes_of_handlerErrors_nil e h⟩
  · exact .inl ⟨h, raises_of_handlerErrors_ne_nil e h⟩

/-! ### Registers, memory and flags -/

theorem State.setReg_getElem_of_ne {k : Fin 8} {n : Nat} (hn : n < 8) (v : Byte) (h : n ≠ k) :
    (s.setReg k v).regs[n] = s.regs[n] :=
  Vector.getElem_set_ne k.isLt hn h.symm

/-- An instruction that completes writes no register but its destination (R18, R21). -/
theorem Completes.reg_eq (h : Completes s i t) {k : Fin 8} (hk : ∀ r, destination i = some r → r.toNat ≠ k) :
    t.regs[k] = s.regs[k] := by
  cases h with
  | ldi | add | mul | pop => exact State.setReg_getElem_of_ne k.isLt _ (hk _ rfl).symm
  | _ => rfl

/-- Settles O37: an error leaves the registers, and an instruction that completes writes its destination alone. -/
theorem otherRegistersUnchanged : Obligations.OtherRegistersUnchanged := by
  intro i s t k hexec hk
  rcases exec_cases hexec with ⟨c, -, rfl⟩ | hcompletes
  · rfl
  · exact hcompletes.reg_eq hk

/-- An instruction that completes stores to no cell but its store address (R44). -/
theorem Completes.mem_read_eq (h : Completes s i t) {a : Nat} (ha : storeAddress i s ≠ some (a : Int)) :
    t.mem.read a = s.mem.read a := by
  cases h with
  | push _ hpos _ | call _ hpos _ =>
    have hne : a ≠ s.sp - 1 := by
      rintro rfl
      exact ha (congrArg some (by simp only [pushAddress]; omega))
    exact Memory.read_write_other s.mem _ hne
  | _ => rfl

/-- Settles O40: an error leaves memory, and an instruction that completes writes its store address alone. -/
theorem otherMemoryUnchanged : Obligations.OtherMemoryUnchanged := by
  intro i s t a hexec ha
  rcases exec_cases hexec with ⟨c, -, rfl⟩ | hcompletes
  · rfl
  · exact hcompletes.mem_read_eq ha

/-- An instruction other than CMP leaves the flags alone, erring or not (R31). -/
theorem flags_eq_of_exec (hexec : exec i s = .next t) (hi : ∀ ra rb, i ≠ .cmp ra rb) : t.flags = s.flags := by
  rcases exec_cases hexec with ⟨c, -, rfl⟩ | hcompletes
  · rfl
  · exact hcompletes.flags_eq hi

/-- Settles O38: a CMP that completes leaves one flag set, an erring one leaves the flags, and a step that changes
the flags has completed an instruction, so a CMP. -/
theorem onlyCompareWritesFlags : Obligations.OnlyCompareWritesFlags := by
  refine ⟨fun i s t => flags_eq_of_exec, fun ra rb s t hexec => ⟨fun ⟨ha, hb⟩ => ?_, fun hge => ?_⟩, ?_⟩
  · rw [exec_of_completes (.cmp ha hb), Host.Outcome.next.injEq] at hexec
    exact hexec ▸ exactlyOne_compareFlags _ _
  · rcases exec_cases hexec with ⟨c, -, rfl⟩ | hcompletes
    · rfl
    · cases hcompletes
      omega
  · intro m s t hstep hflags
    rcases stepWith_raises_or_completes hstep with ⟨c, rfl⟩ | ⟨i, hi, hcompletes⟩
    · exact absurd rfl hflags
    · by_contra hno
      exact hflags (hcompletes.flags_eq fun ra rb he => hno ⟨ra, rb, he ▸ hi⟩)

/-! ### The stack pointer and the program counter -/

/-- Settles O39: an error leaves `sp`, and of the instructions that complete only PUSH, CALL and POP move it. -/
theorem onlyStackInstructionsMoveSp : Obligations.OnlyStackInstructionsMoveSp := by
  intro i s t hexec
  rcases exec_split hexec with ⟨hne, c, rfl⟩ | ⟨hnil, hcompletes⟩
  · cases i with
    | push r | call r | pop r => exact (if_neg hne).mpr rfl
    | _ => rfl
  · cases hcompletes with
    | push _ hpos _ | call _ hpos _ => exact (if_pos hnil).mpr (Nat.sub_add_cancel hpos)
    | pop => exact (if_pos hnil).mpr rfl
    | _ => rfl

/-- Settles O42: an error leaves `pc`; an instruction that completes sets it to its target or adds its length. -/
theorem programCounterTargetOrAdvance : Obligations.ProgramCounterTargetOrAdvance := by
  intro i s t hexec
  rcases exec_split hexec with ⟨hne, c, rfl⟩ | ⟨hnil, hcompletes⟩
  · rw [if_neg hne]
    rfl
  · rw [if_pos hnil]
    cases hcompletes with
    | call h _ _ | jmp h => exact ⟨h, rfl⟩
    | jeqTaken he h => exact (if_pos he).mpr ⟨h, rfl⟩
    | jneTaken he h => exact (if_neg (by simp [he])).mpr ⟨h, rfl⟩
    | jeqUntaken he => exact (if_neg (by simp [he])).mpr rfl
    | jneUntaken he => exact (if_pos he).mpr rfl
    | _ => rfl

/-! ### A register that is not accessed -/

theorem State.setReg_comm {j k : Fin 8} (s : State) (u v : Byte) (h : j.val ≠ k) :
    (s.setReg j u).setReg k v = (s.setReg k v).setReg j u :=
  congrArg (fun regs => { s with regs }) (Vector.set_comm u v h)

theorem State.setPc_setReg (s : State) (a : Nat) (k : Fin 8) (v : Byte) :
    (s.setPc a).setReg k v = (s.setReg k v).setPc a := rfl

theorem State.setSp_setReg (s : State) (a : Nat) (k : Fin 8) (v : Byte) :
    (s.setSp a).setReg k v = (s.setReg k v).setSp a := rfl

/-- The errors of a handler do not depend on the value of any register. -/
theorem handlerErrors_setReg (i : Instr) (s : State) (k : Fin 8) (v : Byte) :
    handlerErrors i (s.setReg k v) = handlerErrors i s := by
  cases i <;> rfl

/-- An instruction that completes does so alike whatever an unaccessed register holds (R19, R108). -/
theorem Completes.setReg (h : Completes s i t) {k : Fin 8} (v : Byte)
    (hk : ∀ r ∈ accessedRegisters i s, r.toNat ≠ k) : Completes (s.setReg k v) i (t.setReg k v) := by
  have hread : ∀ r ∈ accessedRegisters i s, ∀ h : r.toNat < 8, (s.setReg k v).regs[r.toNat] = s.regs[r.toNat] :=
    fun r hr h => State.setReg_getElem_of_ne h v (hk r hr)
  have hwrite : ∀ r ∈ accessedRegisters i s, ∀ (h : r.toNat < 8) u,
      (s.setReg ⟨r.toNat, h⟩ u).setReg k v = (s.setReg k v).setReg ⟨r.toNat, h⟩ u :=
    fun r hr h u => s.setReg_comm u v (hk r hr)
  cases h with
  | hlt => exact .hlt
  | ret hsp => exact .ret hsp
  | jeqUntaken he => exact .jeqUntaken he
  | jneUntaken he => exact .jneUntaken he
  | prn h => exact hread _ List.mem_cons_self h ▸ Completes.prn (s := s.setReg k v) h
  | push h hpos hle => exact hread _ List.mem_cons_self h ▸ Completes.push (s := s.setReg k v) h hpos hle
  | call h hpos hle => exact hread _ List.mem_cons_self h ▸ Completes.call (s := s.setReg k v) h hpos hle
  | jmp h => exact hread _ List.mem_cons_self h ▸ Completes.jmp (s := s.setReg k v) h
  | jeqTaken he h =>
    have hr := hread _ (by simp [accessedRegisters, he]) h
    exact hr ▸ Completes.jeqTaken (s := s.setReg k v) he h
  | jneTaken he h =>
    have hr := hread _ (by simp [accessedRegisters, he]) h
    exact hr ▸ Completes.jneTaken (s := s.setReg k v) he h
  | cmp ha hb =>
    rw [← hread _ List.mem_cons_self ha, ← hread _ (List.mem_cons_of_mem _ List.mem_cons_self) hb]
    exact .cmp (s := s.setReg k v) ha hb
  | ldi h =>
    rw [State.setPc_setReg, hwrite _ List.mem_cons_self]
    exact .ldi h
  | pop h hsp =>
    rw [State.setPc_setReg, State.setSp_setReg, hwrite _ List.mem_cons_self]
    exact .pop h hsp
  | add ha hb =>
    rw [State.setPc_setReg, hwrite _ List.mem_cons_self, ← hread _ List.mem_cons_self ha,
      ← hread _ (List.mem_cons_of_mem _ List.mem_cons_self) hb]
    exact .add ha hb
  | mul ha hb =>
    rw [State.setPc_setReg, hwrite _ List.mem_cons_self, ← hread _ List.mem_cons_self ha,
      ← hread _ (List.mem_cons_of_mem _ List.mem_cons_self) hb]
    exact .mul ha hb

/-- Settles O43: the register changes no error of the handler, so the same first error is raised, and an
instruction that completes does so alike. -/
theorem unaccessedRegisterHasNoEffect : Obligations.UnaccessedRegisterHasNoEffect := by
  intro i s t k v hexec hk
  rcases exec_cases hexec with ⟨c, hc, rfl⟩ | hcompletes
  · obtain ⟨later, hcons⟩ := List.head?_eq_some_iff.mp hc
    exact (reportsFirst_exec i (s.setReg k v)).1 c later ((handlerErrors_setReg i s k v).trans hcons)
  · exact exec_of_completes (hcompletes.setReg v hk)

end Sys2Proof.Machine
